-- ==== Sys2Proof/Word.lean ====
section
/-!
DEFINITION. The widths of the values the block handles (spec/00_scope.md R8, R11; spec/30_encoding.md R71).
Every value is unsigned.
-/

namespace Sys2Proof

/-- One byte of the converter's result register (spec/42_sampler.md R164). -/
abbrev Byte := BitVec 8

/-- A 16-bit value: a ring's index or occupancy counter, an operand IMM, a response, a stored unit
(spec/00_scope.md R8, spec/30_encoding.md R71). A unit of U = 8 bits is held here with bits 15:8 zero. -/
abbrev Half := BitVec 16

/-- A command word (spec/30_encoding.md R71). -/
abbrev CmdWord := BitVec 32

end Sys2Proof
end

