-- ==== Sys2Proof/Syntax.lean ====
section
/-!
DEFINITION. The syntax of the PPF command set, version 1 (spec/30_encoding.md R72, R73): one constructor of `Instr`
per row of spec/opcode_table.json. The conversion-complete event is no command (R78): it is an input of port P, in
Machine/State.lean.
-/

namespace Sys2Proof

/-- The two ports (spec/30_encoding.md R70): P is the producer's, C the consumer's. -/
inductive Port where
  | P | C
deriving DecidableEq, Repr

/-- The role RDSIZE selects (spec/30_encoding.md R74): 0 is capt, 1 is proc. -/
inductive Role where
  | capt | proc
deriving DecidableEq, Repr

/-- The six commands (spec/30_encoding.md R73). -/
inductive Instr where
  /-- PUSH: write the sample x into capt and evaluate promotion (spec/41_producer.md R130). -/
  | push (x : Half)
  /-- READ: read slot k of proc (spec/43_consumer.md R190). -/
  | read (k : Half)
  /-- RDOFF: read the chronological offset of proc (R191). -/
  | rdoff
  /-- RDSTAT: read the status word (R192). -/
  | rdstat
  /-- RDSIZE: read the occupancy counter of the ring in a role (R193). -/
  | rdsize (role : Role)
  /-- RELEASE: clear proc and lower the handoff flag (R194). -/
  | release
deriving DecidableEq, Repr

end Sys2Proof
end

