-- ==== Sys2Proof/Config.lean ====
section
/-!
DEFINITION. The build-time parameters of the block (spec/00_scope.md R6), legal by construction (R10), and what the
spec leaves open: the open parameters that no rule reads (R9) and the one free value (spec/42_sampler.md R166).
-/

namespace Sys2Proof

/-- PRESCALER: the six legal dividers (spec/00_scope.md R6). -/
inductive Prescaler where
  | div4 | div8 | div16 | div32 | div64 | div128
deriving DecidableEq, Repr

/-- The build-time configuration. An illegal one cannot be built, as "no model of it exists"
(spec/00_scope.md R6, R10); `Sys2Proof.Machine.build` is the refusal of raw options. -/
structure Config where
  /-- P: the sampler's prescaler. -/
  prescaler : Prescaler
  /-- OVR8: force a width of 8 where the hardware offers 9. -/
  ovr8 : Bool
  /-- N: the capacity of each ring. -/
  bufSize : Nat
  /-- CH: the analog channel. -/
  channel : Fin 8
  bufSize_pos : 1 ≤ bufSize
  bufSize_le : bufSize ≤ 65535
deriving DecidableEq, Repr

/-- The configuration `State.reset` is built with: P = 64, OVR8 absent, N = 4, CH = 0, so U = 16.
DESIGN CHOICE (unsafe, log entry 1): the spec fixes none. -/
def Config.standard : Config where
  prescaler := .div64
  ovr8 := false
  bufSize := 4
  channel := 0
  bufSize_pos := by decide
  bufSize_le := by decide

/-- The sample of a 2-byte acquisition that reads the high byte first: "any U-bit value, a draw"
(spec/42_sampler.md R166). A FREE VALUE with no body, one for each draw (log entry 13). -/
opaque Config.glitchedSample : Nat → Half

/-- The slot index that READC #j carries into its READ where j ≥ N: spec/43_consumer.md R199 gives READC for
0 ≤ j < N and states no index beyond. A FREE VALUE with no body, one for each draw. DESIGN CHOICE (safe, log
entry 9). -/
opaque Config.readcIndex : Nat → Half

/-- F_SYS, the system clock frequency in hertz: an open parameter which no rule reads (spec/00_scope.md R9). -/
opaque Config.fSys : Nat

/-- PORT_BASE: where each of the two ports appears in a host address space, if it does (spec/00_scope.md R9,
spec/20_memory.md R57). DESIGN CHOICE (safe, log entry 27): the spec gives it no form, and the model takes one optional
address for each port. Open; nothing reads it. -/
opaque Config.portBase : Port → Option Nat

/-- The sampler's control fields by name (spec/10_state.md R31). -/
inductive SamplerField where
  | en | trig | ie | presc | ref | just | didis | mux | gie | start
deriving DecidableEq, Repr

/-- A place in the host's register map: one bit of the register at an address. DESIGN CHOICE (safe, log entry 24): the
spec gives no form for SAMPLER_REGMAP (spec/00_scope.md R9). Nothing reads it. -/
structure RegisterPlace where
  address : Nat
  bit : Nat
deriving DecidableEq, Repr, Inhabited

/-- SAMPLER_REGMAP: where the silicon's datasheet puts each sampler field (spec/00_scope.md R9,
spec/20_memory.md R51), bit by bit, so that a field need not lie in one register. Open; nothing reads it. The form is
the model's choice (log entry 24). -/
opaque Config.samplerRegmap : SamplerField → List RegisterPlace

end Sys2Proof
end

