-- ==== Sys2Proof/Machine/Width.lean ====
section
/-!
DEFINITION. The sample width, the storage-unit width and the result justification as functions of the configuration
(spec/42_sampler.md R160 to R163, R172).
-/

namespace Sys2Proof.Machine

/-- The divider P a prescaler stands for (spec/00_scope.md R6). -/
def prescalerValue : Prescaler → Nat
  | .div4 => 4
  | .div8 => 8
  | .div16 => 16
  | .div32 => 32
  | .div64 => 64
  | .div128 => 128

/-- W, the sample width (spec/42_sampler.md R160). -/
def sampleWidth : Prescaler → Nat
  | .div4 => 5
  | .div8 => 7
  | .div16 => 8
  | .div32 => 9
  | .div64 => 9
  | .div128 => 9

/-- W', the effective width (spec/42_sampler.md R161). UNVERIFIED for OVR8 with P ≤ 16, as the spec itself says
(spec/93_implementation_defined.md row 19; log entry 14, unsafe). -/
def effectiveWidth (c : Config) : Nat :=
  if c.ovr8 && sampleWidth c.prescaler == 9 then 8 else sampleWidth c.prescaler

/-- U, the width of a storage unit in bits (spec/42_sampler.md R162). -/
def unitWidth (c : Config) : Nat :=
  if effectiveWidth c ≤ 8 then 8 else 16

/-- The justification of the converter's result (spec/10_state.md R31, S_JUST). -/
inductive Justification where
  | left | right
deriving DecidableEq, Repr

/-- J, the result justification (spec/42_sampler.md R163). -/
def justification (c : Config) : Justification :=
  if effectiveWidth c ≤ 8 then .left else .right

end Sys2Proof.Machine
end

