-- ==== Sys2Proof/WellFormed.lean ====
section
/-!
DEFINITION. When a command is encodable in a configuration (spec/30_encoding.md R74): the sample of a PUSH fits the
storage unit. Every other operand is encodable at every value; the range k < N of READ is no matter of the encoding.
-/

namespace Sys2Proof

/-- x fits the storage unit: it is the value of its own bits U-1:0 (spec/30_encoding.md R74). -/
def sampleFits (c : Config) (x : Half) : Bool :=
  decide (x.toNat < 2 ^ Machine.unitWidth c)

/-- The command is one the encoding of R74 can hold, in the configuration c. -/
def Instr.wellFormed (c : Config) : Instr → Bool
  | .push x => sampleFits c x
  | .read _ => true
  | .rdoff => true
  | .rdstat => true
  | .rdsize _ => true
  | .release => true

end Sys2Proof
end

