-- ==== Sys2Proof/Decode.lean ====
section
/-!
DEFINITION. Decoding and encoding of command words (spec/30_encoding.md R71 to R77), and the host's
`decodeTableWord`.
-/

namespace Sys2Proof

/-- Why a word is no command at a port (spec/60_exceptions.md R231): F1, F2 and F3, which decode raises. -/
inductive DecodeError where
  /-- F1 ILLEGAL_OP. -/
  | illegalOp
  /-- F2 WRONG_PORT. -/
  | wrongPort
  /-- F3 RESERVED_BITS. -/
  | reservedBits
deriving DecidableEq, Repr

/-- The field OP, bits 31:28 (spec/30_encoding.md R71). -/
def opField (w : CmdWord) : BitVec 4 := w.extractLsb' 28 4

/-- The field RSV, bits 27:16 (spec/30_encoding.md R71). -/
def rsvField (w : CmdWord) : BitVec 12 := w.extractLsb' 16 12

/-- The field IMM, bits 15:0 (spec/30_encoding.md R71). -/
def immField (w : CmdWord) : Half := w.extractLsb' 0 16

/-- The six opcodes (spec/30_encoding.md R73). -/
inductive Opcode where
  | push | read | rdoff | rdstat | rdsize | release
deriving DecidableEq, Repr

/-- The opcode map; `none` is a reserved opcode (spec/30_encoding.md R73, R76). -/
def opcodeOf (op : BitVec 4) : Option Opcode :=
  match op.toNat with
  | 1 => some .push
  | 2 => some .read
  | 3 => some .rdoff
  | 4 => some .rdstat
  | 5 => some .rdsize
  | 6 => some .release
  | _ => none

/-- The port a command belongs to (spec/30_encoding.md R72). -/
def portOfOpcode : Opcode → Port
  | .push => .P
  | .read => .C
  | .rdoff => .C
  | .rdstat => .C
  | .rdsize => .C
  | .release => .C

/-- The operand of a command, by opcode (spec/30_encoding.md R74, the last part of R75). -/
def decodeOperand (c : Config) (op : Opcode) (imm : Half) : Except DecodeError Instr :=
  match op with
  | .push => if Machine.unitWidth c = 8 ∧ imm.extractLsb' 8 8 ≠ 0 then .error .reservedBits else .ok (.push imm)
  | .read => .ok (.read imm)
  | .rdoff => if imm ≠ 0 then .error .reservedBits else .ok .rdoff
  | .rdstat => if imm ≠ 0 then .error .reservedBits else .ok .rdstat
  | .rdsize =>
    if imm.extractLsb' 1 15 ≠ 0 then .error .reservedBits
    else .ok (.rdsize (if imm.getLsbD 0 then .proc else .capt))
  | .release => if imm ≠ 0 then .error .reservedBits else .ok .release

/-- Decoding: a total function of the port and the word, its checks in the order of spec/30_encoding.md R75. -/
def decode (c : Config) (p : Port) (w : CmdWord) : Except DecodeError Instr :=
  match opcodeOf (opField w) with
  | none => .error .illegalOp
  | some op =>
    if portOfOpcode op ≠ p then .error .wrongPort
    else if rsvField w ≠ 0 then .error .reservedBits
    else decodeOperand c op (immField w)

/-- The opcode of a command (spec/30_encoding.md R73). -/
def opcode : Instr → BitVec 4
  | .push _ => 0x1#4
  | .read _ => 0x2#4
  | .rdoff => 0x3#4
  | .rdstat => 0x4#4
  | .rdsize _ => 0x5#4
  | .release => 0x6#4

/-- The port a command belongs to (spec/30_encoding.md R72). -/
def portOf : Instr → Port
  | .push _ => .P
  | .read _ => .C
  | .rdoff => .C
  | .rdstat => .C
  | .rdsize _ => .C
  | .release => .C

/-- IMM of a command (spec/30_encoding.md R73, R74). -/
def immOf : Instr → Half
  | .push x => x
  | .read k => k
  | .rdoff => 0
  | .rdstat => 0
  | .rdsize .capt => 0
  | .rdsize .proc => 1
  | .release => 0

/-- The word of a command, in format C32 with RSV = 0 (spec/30_encoding.md R71). -/
def encode (i : Instr) : CmdWord := opcode i ++ 0#12 ++ immOf i

/-- The port a word is presented at when it is presented where it belongs: that of its opcode, and port P for a
reserved opcode, which is a fault at either port (spec/30_encoding.md R72, R75). -/
def portOfWord (w : CmdWord) : Port :=
  match opcodeOf (opField w) with
  | none => .P
  | some op => portOfOpcode op

/-- What the decoder reads from a table row's word, presented at the port it belongs to, in the configuration of
`State.reset`; every command is one 32-bit word (spec/30_encoding.md R77). -/
def decodeTableWord (nbits w : Nat) : Option Instr :=
  let word : CmdWord := BitVec.ofNat 32 (w % 2 ^ nbits)
  match decode Config.standard (portOfWord word) word with
  | .ok i => some i
  | .error _ => none

end Sys2Proof
end

