-- ==== Sys2Proof/Machine/State.lean ====
section
/-!
DEFINITION. The state of the block (spec/10_state.md R20 to R37), its inputs and outputs, the faults of
spec/60_exceptions.md R231, and the state after reset (spec/70_reset_and_hazards.md R260).
-/

namespace Sys2Proof.Machine

/-- The two rings by identity (spec/10_state.md R23): ping is ring[0], pong is ring[1]. -/
inductive RingId where
  | ping | pong
deriving DecidableEq, Repr

/-- A ring's storage: the written slots, each with its unit, slots strictly rising. An unlisted slot is one that
nothing has written (wr = 0), and it has no value (spec/10_state.md R32, R33; log entries 4 and 16). -/
abbrev Memory := List (Nat × Half)

/-- A ring (spec/10_state.md R20): the producer index, the occupancy counter, and the storage with its written
bits. -/
structure Ring where
  i : Half
  size : Half
  mem : Memory
deriving DecidableEq, Repr

/-- RingConstruct (spec/40_ring.md R100): no index, no count, no slot written. -/
def Ring.fresh : Ring where
  i := 0
  size := 0
  mem := []

/-- S_TRIG (spec/10_state.md R31): free-run, or one of the sources the spec does not list. -/
inductive TriggerSource where
  | freeRun
  | other
deriving DecidableEq, Repr

/-- S_REF (spec/10_state.md R31): external, or one of the references the spec does not list. -/
inductive Reference where
  | external
  | other
deriving DecidableEq, Repr

/-- The sampler's control fields (spec/10_state.md R31) and the progress of the initialisation
(spec/42_sampler.md R168, R170). -/
structure SamplerCtl where
  /-- S_EN, conversion enable. -/
  en : Bool
  /-- S_TRIG, auto-trigger source. -/
  trig : TriggerSource
  /-- S_IE, completion interrupt. -/
  ie : Bool
  /-- S_PRESC, prescaler. -/
  presc : Prescaler
  /-- S_REF, reference. -/
  ref : Reference
  /-- S_JUST, result justification. -/
  just : Justification
  /-- S_DIDIS, digital input buffers, 1 = disabled. -/
  didis : BitVec 8
  /-- S_MUX, input multiplexer. -/
  mux : Fin 8
  /-- GIE, the host processor's global interrupts. -/
  gie : Bool
  /-- S_START, first conversion. -/
  start : Bool
  /-- How many of the ten settings are done, in their order. -/
  initDone : Nat
deriving DecidableEq, Repr

/-- The ten settings of the initialisation, in the order of spec/42_sampler.md R168. -/
inductive InitStep where
  | conversionEnable
  | autoTrigger
  | completionInterrupt
  | prescaler
  | reference
  | justification
  | inputBuffers
  | multiplexer
  | globalInterrupts
  | firstConversion
deriving DecidableEq, Repr

/-- What the host does to the sampler: a setting (spec/42_sampler.md R168), or the main context's masking and
unmasking of global interrupts (spec/60_exceptions.md R235). -/
inductive HostInput where
  | setting (st : InitStep)
  | mask
  | unmask
deriving DecidableEq, Repr

/-- What port P is given (spec/30_encoding.md R70, R78): a command word, or a conversion-complete event with the
converter's result bytes. `convHighFirst` is the conversion whose bytes the host's own ISR software reads high byte
first (spec/42_sampler.md R166). -/
inductive ProducerInput where
  | word (w : CmdWord)
  | conv (lo hi : Byte)
  | convHighFirst (lo hi : Byte)
deriving DecidableEq, Repr

/-- What port C is given (spec/30_encoding.md R70, R80): a command word, or a pseudo-instruction of the host. -/
inductive ConsumerInput where
  | word (w : CmdWord)
  | waitbusy
  | readc (j : Nat)
deriving DecidableEq, Repr

/-- Who steps (spec/20_memory.md R59): the producer, the consumer, or the host acting on the sampler. -/
inductive Agent where
  | producer | consumer | host
deriving DecidableEq, Repr

/-- The five faults of spec/60_exceptions.md R231, each with what it records. A command that faults leaves the mark in
`State.fault`; a step of a state that holds a mark answers `.fault` with it, since a faulted state has no further step
(R233). All are safe: the hardware's behaviour is undefined there and the model goes no further. -/
inductive Fault where
  /-- F1 ILLEGAL_OP: raised by decode at either port for a reserved opcode. Safe. -/
  | illegalOp (port : Port) (word : CmdWord)
  /-- F2 WRONG_PORT: raised by decode for a command presented at the other port. Safe. -/
  | wrongPort (port : Port) (word : CmdWord)
  /-- F3 RESERVED_BITS: raised by decode for a reserved bit that is not zero. Safe. -/
  | reservedBits (port : Port) (word : CmdWord)
  /-- F4 INDEX_RANGE: raised by READ for k ≥ N. Safe. -/
  | indexRange (word : CmdWord) (k : Half)
  /-- F5 UNWRITTEN_READ: raised by READ for a slot of proc that nothing has written. Safe. -/
  | unwrittenRead (word : CmdWord) (ring : RingId) (slot : Half)
deriving DecidableEq, Repr

/-- Inputs outside the model (treatment `refuse` of spec/93_implementation_defined.md), and a command without a
meaning. -/
inductive Refusal where
  /-- Raised by an arm of `exec` whose command has no meaning yet. Safe. No arm does. -/
  | notModelled (mnemonic : String)
  /-- Raised by the host's action: a setting out of the order spec/42_sampler.md R169 requires. Safe. -/
  | settingOutOfOrder (st : InitStep)
  /-- Raised by the host's action: global interrupts enabled before the settings are done (R169). Safe. -/
  | unmaskBeforeSettings
deriving DecidableEq, Repr

/-- The state: what spec/10_state.md R20 lists, the build parameters (constant), the stream positions of R25, and the
model's own inputs and outputs (INVENTORY.md, State). -/
structure State where
  /-- The build parameters (spec/00_scope.md R6); no step changes them. -/
  cfg : Config
  /-- ring[0]. -/
  ping : Ring
  /-- ring[1]. -/
  pong : Ring
  /-- The role selector: the ring that capt names (spec/10_state.md R24). -/
  sel : RingId
  /-- The handoff flag (spec/10_state.md R26). -/
  busy : Bool
  /-- The sampler's control fields (spec/10_state.md R31). -/
  smp : SamplerCtl
  /-- The sticky fault mark (spec/10_state.md R34). -/
  fault : Option Fault
  /-- The position in port P's stream (spec/10_state.md R25). -/
  posP : Nat
  /-- The position in port C's stream (spec/10_state.md R25). -/
  posC : Nat
  /-- What port P is still to be given (the model's own). -/
  prodIn : List ProducerInput
  /-- What port C is still to be given (the model's own). -/
  consIn : List ConsumerInput
  /-- The host's actions still to come (the model's own). -/
  hostIn : List HostInput
  /-- Who steps, in order: the schedule (the model's own; spec/60_exceptions.md R236). -/
  sched : List Agent
  /-- The responses port C has returned, oldest first (the model's own). -/
  responses : List Half
  /-- How many free values have been drawn (the model's own; log entries 9 and 13). -/
  draws : Nat
deriving DecidableEq, Repr

/-- The sampler after reset: not started, no setting done (spec/10_state.md R37). Every other field is unspecified
there: DESIGN CHOICE (unsafe, log entry 10). -/
def SamplerCtl.reset : SamplerCtl where
  en := false
  trig := .other
  ie := false
  presc := .div4
  ref := .other
  just := .right
  didis := 0
  mux := 0
  gie := false
  start := false
  initDone := 0

/-- The state after reset of a block built with the configuration c (spec/10_state.md R37,
spec/70_reset_and_hazards.md R260). -/
def State.resetWith (c : Config) : State where
  cfg := c
  ping := Ring.fresh
  pong := Ring.fresh
  sel := .ping
  busy := false
  smp := SamplerCtl.reset
  fault := none
  posP := 0
  posC := 0
  prodIn := []
  consIn := []
  hostIn := []
  sched := []
  responses := []
  draws := 0

/-- The state right after reset, of the configuration of log entry 1. -/
def State.reset : State := State.resetWith Config.standard

/-- What an instruction or a step answers. -/
abbrev Result := Host.Outcome State Fault Refusal

end Sys2Proof.Machine
end

