-- ==== Sys2Proof/Machine/Ops.lean ====
section
/-!
DEFINITION. The named operations over storage, rings and roles (spec/40_ring.md R100 to R109; spec/10_state.md R22 to
R33), the response (spec/00_scope.md R13), and raising a fault (spec/60_exceptions.md R233), the one exceptional entry
the block has: nothing returns from it. An interrupt's entry and return save and restore nothing in the block
(R237, R238).
-/

namespace Sys2Proof.Machine

/-! ### Storage -/

/-- The unit in slot k, or none where nothing has written it (MemRead, spec/00_scope.md R13). -/
def Memory.read (m : Memory) (k : Nat) : Option Half :=
  match m with
  | [] => none
  | (a, v) :: rest => if a = k then some v else Memory.read rest k

/-- Stores v in slot k and marks the slot written (MemWrite, spec/00_scope.md R13). Keeps the slots rising. -/
def Memory.write (m : Memory) (k : Nat) (v : Half) : Memory :=
  match m with
  | [] => [(k, v)]
  | (a, b) :: rest =>
    if k < a then (k, v) :: (a, b) :: rest
    else if k = a then (k, v) :: rest
    else (a, b) :: Memory.write rest k v

/-- The canonical form: slots strictly rising. -/
def Memory.wf : Memory → Bool
  | [] => true
  | [_] => true
  | (a, _) :: (b, v) :: rest => decide (a < b) && Memory.wf ((b, v) :: rest)

/-- wr[k]: slot k has been written since reset (spec/10_state.md R33). -/
def Ring.wr (r : Ring) (k : Nat) : Bool := (r.mem.read k).isSome

/-! ### Rings -/

/-- RingWrite (spec/40_ring.md R101), with the compare-and-reset of the index (R106). -/
def ringWrite (c : Config) (r : Ring) (x : Half) : Ring where
  mem := r.mem.write r.i.toNat x
  i := if r.i.toNat + 1 ≥ c.bufSize then 0 else r.i + 1
  size := if r.size.toNat < c.bufSize then r.size + 1 else r.size

/-- RingFull (spec/40_ring.md R102). -/
def ringFull (c : Config) (r : Ring) : Bool := r.size.toNat == c.bufSize

/-- RingClear (spec/40_ring.md R103): the count only. -/
def ringClear (r : Ring) : Ring := { r with size := 0 }

/-- Why RingIndex gives no unit (spec/40_ring.md R104): F4, then F5. -/
inductive IndexError where
  | range | unwritten
deriving DecidableEq, Repr

/-- RingIndex (spec/40_ring.md R104): the unit in physical slot k. -/
def ringIndex (c : Config) (r : Ring) (k : Half) : Except IndexError Half :=
  if k.toNat ≥ c.bufSize then .error .range
  else match r.mem.read k.toNat with
    | none => .error .unwritten
    | some v => .ok v

/-! ### Roles -/

/-- The other ring. -/
def RingId.other : RingId → RingId
  | .ping => .pong
  | .pong => .ping

/-- The bit of a ring's number: ping is 0, pong is 1 (spec/10_state.md R24). -/
def RingId.bit : RingId → BitVec 1
  | .ping => 0#1
  | .pong => 1#1

/-- ring[r] (spec/00_scope.md R12). -/
def State.ring (s : State) : RingId → Ring
  | .ping => s.ping
  | .pong => s.pong

/-- ring[r] <- x. -/
def State.setRing (s : State) (r : RingId) (x : Ring) : State :=
  match r with
  | .ping => { s with ping := x }
  | .pong => { s with pong := x }

/-- The ring proc names, by identity (spec/10_state.md R24). -/
def State.procId (s : State) : RingId := s.sel.other

/-- capt = ring[sel] (spec/10_state.md R24). -/
def State.capt (s : State) : Ring := s.ring s.sel

/-- proc = ring[1 - sel] (spec/10_state.md R24). -/
def State.proc (s : State) : Ring := s.ring s.procId

/-! ### Responses and faults -/

/-- respond(v) (spec/00_scope.md R13). -/
def State.respond (s : State) (v : Half) : State := { s with responses := s.responses ++ [v] }

/-- raise Fault: the mark and nothing else, and the first one stays (spec/60_exceptions.md R233). -/
def State.raise (s : State) (f : Fault) : State := { s with fault := s.fault.or (some f) }

/-- The fault decode raises for a word at a port, with what R231 records. -/
def faultOfDecode (p : Port) (w : CmdWord) : DecodeError → Fault
  | .illegalOp => .illegalOp p w
  | .wrongPort => .wrongPort p w
  | .reservedBits => .reservedBits p w

/-- A faulted state is quiescent: no command has a step in it (spec/60_exceptions.md R233). -/
def unlessFaulted (s : State) (run : Result) : Result :=
  match s.fault with
  | some f => .fault f
  | none => run

end Sys2Proof.Machine
end

