-- ==== Sys2Proof/Machine/Flags.lean ====
section
/-!
DEFINITION. The flags: full (spec/10_state.md R27), the promotion test (spec/41_producer.md R130), and the status
word STAT (spec/10_state.md R30).
-/

namespace Sys2Proof.Machine

/-- CFULL: capt is full (spec/10_state.md R27, R30). -/
def State.captFull (s : State) : Bool := ringFull s.cfg s.capt

/-- The promotion test, after the write: no frame in flight and capt full (spec/41_producer.md R130). -/
def State.promotes (s : State) : Bool := !s.busy && s.captFull

/-- Promotion: busy goes from 0 to 1 and the roles swap, together (spec/41_producer.md R131). -/
def State.promote (s : State) : State := { s with busy := true, sel := s.sel.other }

/-- STAT (spec/10_state.md R30): bits 15:3 zero, then CFULL, CSEL and BUSY. -/
def State.stat (s : State) : Half :=
  0#13 ++ BitVec.ofBool s.captFull ++ s.sel.bit ++ BitVec.ofBool s.busy

end Sys2Proof.Machine
end

