-- ==== Sys2Proof/Machine/Operands.lean ====
section
/-!
DEFINITION. The operand forms of the commands (spec/30_encoding.md R74): the sample of PUSH, the role of RDSIZE, and
the slot index the host computes for READC (spec/43_consumer.md R199). READ's index is IMM itself.
-/

namespace Sys2Proof.Machine

/-- x = IMM[U-1:0], held in 16 bits (spec/30_encoding.md R74; log entry 6). -/
def pushOperand (c : Config) (imm : Half) : Half :=
  if unitWidth c = 8 then (imm.extractLsb' 0 8).setWidth 16 else imm

/-- The ring in a role: role 0 is capt, role 1 is proc (spec/30_encoding.md R74, spec/43_consumer.md R193). -/
def State.ringOfRole (s : State) : Role → Ring
  | .capt => s.capt
  | .proc => s.proc

/-- The physical slot of the j-th oldest sample, as the host computes it: (off + j) mod N with no divide
(spec/43_consumer.md R199). -/
def readcSlot (c : Config) (off : Half) (j : Nat) : Nat :=
  let t := off.toNat + j
  if t ≥ c.bufSize then t - c.bufSize else t

end Sys2Proof.Machine
end

