-- ==== Sys2Proof/Machine/Consumer.lean ====
section
/-!
DEFINITION. The consumer port's commands (spec/43_consumer.md R190 to R194).
-/

namespace Sys2Proof.Machine

/-- What READ does with RingIndex's answer: the response, or the fault with what R231 records. The recorded command
word is the command's own (log entry 21). -/
def readResult (k : Half) (s : State) : Except IndexError Half → State
  | .ok v => s.respond v
  | .error .range => s.raise (.indexRange (encode (.read k)) k)
  | .error .unwritten => s.raise (.unwrittenRead (encode (.read k)) s.procId k)

/-- READ (spec/43_consumer.md R190). -/
def execRead (k : Half) (s : State) : Result :=
  unlessFaulted s (.next (readResult k s (ringIndex s.cfg s.proc k)))

/-- RDOFF (spec/43_consumer.md R191). -/
def execRdoff (s : State) : Result :=
  unlessFaulted s (.next (s.respond s.proc.i))

/-- RDSTAT (spec/43_consumer.md R192). -/
def execRdstat (s : State) : Result :=
  unlessFaulted s (.next (s.respond s.stat))

/-- RDSIZE (spec/43_consumer.md R193). -/
def execRdsize (role : Role) (s : State) : Result :=
  unlessFaulted s (.next (s.respond (s.ringOfRole role).size))

/-- proc's count to 0 and the handoff flag to 0, in one step (spec/43_consumer.md R194). -/
def releaseFrame (s : State) : State :=
  { s.setRing s.procId (ringClear s.proc) with busy := false }

/-- RELEASE (spec/43_consumer.md R194). -/
def execRelease (s : State) : Result :=
  unlessFaulted s (.next (releaseFrame s))

end Sys2Proof.Machine
end

