-- ==== Sys2Proof/Machine/Producer.lean ====
section
/-!
DEFINITION. The producer port's command PUSH (spec/41_producer.md R130 to R134).
-/

namespace Sys2Proof.Machine

/-- RingWrite on capt, then the promotion test, in one step (spec/41_producer.md R130). -/
def pushSample (x : Half) (s : State) : State :=
  let written := s.setRing s.sel (ringWrite s.cfg s.capt x)
  if written.promotes then written.promote else written

/-- PUSH (spec/41_producer.md R130): enabled in every state without a fault mark (R134). -/
def execPush (x : Half) (s : State) : Result :=
  unlessFaulted s (.next (pushSample (pushOperand s.cfg x) s))

end Sys2Proof.Machine
end

