-- ==== Sys2Proof/Machine/Dispatch.lean ====
section
/-!
DEFINITION. One arm per command of spec/opcode_table.json.
-/

namespace Sys2Proof.Machine

/-- The meaning of a command, at the port it belongs to (spec/30_encoding.md R73). -/
def exec (i : Instr) (s : State) : Host.Outcome State Fault Refusal :=
  match i with
  | .push x => Sys2Proof.Machine.execPush x s
  | .read k => Sys2Proof.Machine.execRead k s
  | .rdoff => Sys2Proof.Machine.execRdoff s
  | .rdstat => Sys2Proof.Machine.execRdstat s
  | .rdsize role => Sys2Proof.Machine.execRdsize role s
  | .release => Sys2Proof.Machine.execRelease s

end Sys2Proof.Machine
end

