-- ==== Sys2Proof/Machine/Sampler.lean ====
section
/-!
DEFINITION. The sampler front end: the acquisition of one sample (spec/42_sampler.md R164 to R167), the
conversion-complete event (spec/41_producer.md R135), the initialisation (spec/42_sampler.md R168 to R171) and the
masking of the interrupt (spec/60_exceptions.md R234, R235).
-/

namespace Sys2Proof.Machine

/-! ### Acquisition -/

/-- The converter's result register as a read sees it: the two bytes of the latest conversion, and the high byte that a
read of the low byte has latched (spec/42_sampler.md R165, spec/10_state.md R35). -/
structure ConverterResult where
  lo : Byte
  hi : Byte
  latched : Option Byte
deriving DecidableEq, Repr

/-- A read of the low byte latches the high byte (spec/42_sampler.md R165). -/
def readLowByte (r : ConverterResult) : Byte × ConverterResult :=
  (r.lo, { r with latched := some r.hi })

/-- A read of the high byte gives the latched one, if any, and releases the latch (spec/42_sampler.md R164, R165). -/
def readHighByte (r : ConverterResult) : Byte × ConverterResult :=
  (r.latched.getD r.hi, { r with latched := none })

/-- Acquire (spec/42_sampler.md R164): the high byte alone for U = 8, else the low byte first and then the high byte,
composed as the high byte above the low byte. -/
def acquire (c : Config) (r : ConverterResult) : Half :=
  if unitWidth c = 8 then (readHighByte r).1.setWidth 16
  else
    let low := readLowByte r
    let high := readHighByte low.2
    high.1 ++ low.1

/-- The register as one conversion leaves it: no latch is set between steps (spec/10_state.md R35). -/
def conversionResult (lo hi : Byte) : ConverterResult where
  lo := lo
  hi := hi
  latched := none

/-! ### The conversion-complete event -/

/-- `running`: all ten settings are done, in their order (spec/42_sampler.md R170). -/
def SamplerCtl.running (p : SamplerCtl) : Bool := p.initDone == 10

/-- The interrupt is delivered: completion interrupt and global interrupts enabled (spec/60_exceptions.md R234).
A completion that arrives while it is masked stays pending (R235; log entry 12). -/
def SamplerCtl.unmasked (p : SamplerCtl) : Bool := p.ie && p.gie

/-- A CONV step is enabled (spec/41_producer.md R135, spec/60_exceptions.md R234, R235). -/
def State.convEnabled (s : State) : Bool := s.smp.running && s.smp.unmasked

/-- CONV with the sample acquired by the front end: PUSH without decode (spec/41_producer.md R135). -/
def convStep (lo hi : Byte) (s : State) : State :=
  pushSample (acquire s.cfg (conversionResult lo hi)) s

/-- CONV whose two bytes the host's ISR software reads high byte first: the sample is a free value
(spec/42_sampler.md R166; log entry 13). With U = 8 only the high byte is read and no order can be violated. -/
def convHighFirstStep (lo hi : Byte) (s : State) : State :=
  if unitWidth s.cfg = 8 then convStep lo hi s
  else { pushSample (Config.glitchedSample s.draws) s with draws := s.draws + 1 }

/-! ### Initialisation and masking -/

/-- A setting's place in the order (spec/42_sampler.md R168). -/
def InitStep.number : InitStep → Nat
  | .conversionEnable => 1
  | .autoTrigger => 2
  | .completionInterrupt => 3
  | .prescaler => 4
  | .reference => 5
  | .justification => 6
  | .inputBuffers => 7
  | .multiplexer => 8
  | .globalInterrupts => 9
  | .firstConversion => 10

/-- The ten settings in order (spec/42_sampler.md R168). -/
def initSequence : List InitStep :=
  [.conversionEnable, .autoTrigger, .completionInterrupt, .prescaler, .reference, .justification, .inputBuffers,
    .multiplexer, .globalInterrupts, .firstConversion]

/-- The field a setting writes and its value (spec/42_sampler.md R168, R171). -/
def applySetting (c : Config) (st : InitStep) (p : SamplerCtl) : SamplerCtl :=
  match st with
  | .conversionEnable => { p with en := true }
  | .autoTrigger => { p with trig := .freeRun }
  | .completionInterrupt => { p with ie := true }
  | .prescaler => { p with presc := c.prescaler }
  | .reference => { p with ref := .external }
  | .justification => { p with just := justification c }
  | .inputBuffers => { p with didis := 0xFF#8 }
  | .multiplexer => { p with mux := c.channel }
  | .globalInterrupts => { p with gie := true }
  | .firstConversion => { p with start := true }

/-- One setting, which must be the next in the order (spec/42_sampler.md R169; log entry 11). -/
def execSetting (st : InitStep) (s : State) : Result :=
  if st.number = s.smp.initDone + 1 then
    .next { s with smp := { applySetting s.cfg st s.smp with initDone := st.number } }
  else .refused (.settingOutOfOrder st)

/-- The main context masks global interrupts (spec/60_exceptions.md R235). -/
def execMask (s : State) : Result :=
  .next { s with smp := { s.smp with gie := false } }

/-- The main context unmasks them; not before the ninth setting has enabled them (spec/42_sampler.md R169). -/
def execUnmask (s : State) : Result :=
  if s.smp.initDone < 9 then .refused .unmaskBeforeSettings
  else .next { s with smp := { s.smp with gie := true } }

end Sys2Proof.Machine
end

