-- ==== Sys2Proof/Machine/Ports.lean ====
section
/-!
DEFINITION. What an agent's turn does: the two ports with their inputs (spec/30_encoding.md R70, R75, R80), and the
host acting on the sampler (spec/42_sampler.md R168, spec/60_exceptions.md R235).
-/

namespace Sys2Proof.Machine

/-- The turn is used up. This alone is the turn of an agent that has no enabled step: its input is empty, it is held
in WAITBUSY, or no conversion-complete event can be raised (spec/00_scope.md R13; log entry 3). -/
def State.endTurn (s : State) : State := { s with sched := s.sched.tail }

/-- The port accepts the head of its input: its position advances by 1 (spec/10_state.md R25). -/
def State.accept (s : State) (p : Port) : State :=
  match p with
  | .P => { s.endTurn with prodIn := s.prodIn.tail, posP := s.posP + 1 }
  | .C => { s.endTurn with consIn := s.consIn.tail, posC := s.posC + 1 }

/-- A command that has raised a fault is not accepted: nothing but the mark changes (spec/60_exceptions.md R233; log
entry 5). -/
def State.acceptUnlessFaulted (s : State) (p : Port) : State :=
  match s.fault with
  | some _ => s
  | none => s.accept p

/-- f on the next state, if there is one. -/
def mapNext (f : State → State) : Result → Result
  | .next t => .next (f t)
  | .fault e => .fault e
  | .refused e => .refused e

/-- A word at a port: decode, then the fault or the command (spec/30_encoding.md R75). -/
def presentWord (p : Port) (w : CmdWord) (s : State) : Result :=
  match decode s.cfg p w with
  | .error e => .next (s.raise (faultOfDecode p w e))
  | .ok i => exec i s

/-- A word at the head of a port's input, with its acceptance. -/
def commandStep (p : Port) (w : CmdWord) (s : State) : Result :=
  mapNext (fun t => t.acceptUnlessFaulted p) (presentWord p w s)

/-- A conversion-complete event at the head of port P's input: one producer step if it is enabled, else it waits
(spec/41_producer.md R135, spec/60_exceptions.md R235). The event advances port P's position as a command does:
DESIGN CHOICE (safe, log entry 25), since spec/10_state.md R25 speaks of accepted commands alone. -/
def eventStep (effect : State → State) (s : State) : Result :=
  if s.convEnabled then .next ((effect s).accept .P) else .next s.endTurn

/-- The producer's turn (spec/41_producer.md R134, R135). -/
def producerStep (s : State) : Result :=
  match s.prodIn with
  | [] => .next s.endTurn
  | .word w :: _ => commandStep .P w s
  | .conv lo hi :: _ => eventStep (convStep lo hi) s
  | .convHighFirst lo hi :: _ => eventStep (convHighFirstStep lo hi) s

/-- WAITBUSY (spec/43_consumer.md R198): held while busy = 0; when busy = 1 it completes, as the RDSTAT of its loop
that reads BUSY = 1 (log entry 8). -/
def waitbusyStep (s : State) : Result :=
  if s.busy then commandStep .C (encode .rdstat) s else .next s.endTurn

/-- RDOFF now, and the READ of slot k as the next command of port C, with `drawn` free values drawn so far
(spec/43_consumer.md R199). -/
def rdoffThenRead (k : Half) (drawn : Nat) (s : State) : Result :=
  mapNext (fun t => { t with consIn := .word (encode (.read k)) :: t.consIn, draws := drawn })
    (commandStep .C (encode .rdoff) s)

/-- READC #j (spec/43_consumer.md R199): RDOFF, then READ of the slot the host computes from its response. For j ≥ N
the spec states no slot, and it is a free value (log entry 9). -/
def readcStep (j : Nat) (s : State) : Result :=
  if j < s.cfg.bufSize then rdoffThenRead (BitVec.ofNat 16 (readcSlot s.cfg s.proc.i j)) s.draws s
  else rdoffThenRead (Config.readcIndex s.draws) (s.draws + 1) s

/-- The consumer's turn (spec/43_consumer.md R190 to R199). -/
def consumerStep (s : State) : Result :=
  match s.consIn with
  | [] => .next s.endTurn
  | .word w :: _ => commandStep .C w s
  | .waitbusy :: _ => waitbusyStep s
  | .readc j :: _ => readcStep j s

/-- What one action of the host does (spec/42_sampler.md R168, spec/60_exceptions.md R235). -/
def hostAction (a : HostInput) (s : State) : Result :=
  match a with
  | .setting st => execSetting st s
  | .mask => execMask s
  | .unmask => execUnmask s

/-- The host's turn. -/
def hostStep (s : State) : Result :=
  match s.hostIn with
  | [] => .next s.endTurn
  | a :: rest => mapNext (fun t => { t.endTurn with hostIn := rest }) (hostAction a s)

/-- The turn of the agent the schedule names; with no turn left nothing is presented to the block and nothing changes
(log entry 3). A faulted state has no further step (spec/60_exceptions.md R233). -/
def agentStep (s : State) : Result :=
  unlessFaulted s (
    match s.sched with
    | [] => .next s
    | .producer :: _ => producerStep s
    | .consumer :: _ => consumerStep s
    | .host :: _ => hostStep s)

/-- The agent that drives a port. -/
def agentOfPort : Port → Agent
  | .P => .producer
  | .C => .consumer

/-- s with the word w as the next input of port p, and that port's agent next to move. -/
def State.present (s : State) (p : Port) (w : CmdWord) : State :=
  match p with
  | .P => { s with prodIn := .word w :: s.prodIn, sched := agentOfPort p :: s.sched }
  | .C => { s with consIn := .word w :: s.consIn, sched := agentOfPort p :: s.sched }

end Sys2Proof.Machine
end

