-- ==== Sys2Proof/Machine/Step.lean ====
section
/-!
DEFINITION. One step of the machine: one turn of the agent the schedule names (spec/20_memory.md R59).
-/

namespace Sys2Proof.Machine

/-- One step (spec/20_memory.md R59). -/
def step (s : State) : Host.Outcome State Fault Refusal := agentStep s

/-- s with the command word w presented at the port it belongs to, so that the next step runs it. -/
def State.withFetchWord (s : State) (nbits w : Nat) : State :=
  let word : CmdWord := BitVec.ofNat 32 (w % 2 ^ nbits)
  s.present (portOfWord word) word

end Sys2Proof.Machine
end

