-- ==== Sys2Proof/Machine/Assembler.lean ====
section
/-!
DEFINITION. The assembler syntax of spec/30_encoding.md R79, the pseudo-instructions of R80, the ports' inputs a
listing stands for, and the reference consumer program of spec/43_consumer.md R200. What the syntax leaves open is in
log entry 19.
-/

namespace Sys2Proof.Machine

/-- An immediate: a number, or inside REPEAT an expression in the loop counter t (spec/30_encoding.md R79, R80). -/
inductive ImmExpr where
  | lit (n : Nat)
  | counter
  | add (a b : ImmExpr)
  | sub (a b : ImmExpr)
  | mul (a b : ImmExpr)
deriving DecidableEq, Repr

/-- The value of an immediate at loop counter t. -/
def ImmExpr.eval (t : Nat) : ImmExpr → Nat
  | .lit n => n
  | .counter => t
  | .add a b => a.eval t + b.eval t
  | .sub a b => a.eval t - b.eval t
  | .mul a b => a.eval t * b.eval t

/-- A statement (spec/30_encoding.md R79). -/
inductive Stmt where
  | push (x : ImmExpr)
  | read (k : ImmExpr)
  | rdoff
  | rdstat
  | rdsize (role : Role)
  | release
  | conv (lo : Option ImmExpr) (hi : ImmExpr)
  | waitbusy
  | readc (j : ImmExpr)
deriving DecidableEq, Repr

/-- A listing: statements, each with its port where one is written, and REPEAT blocks (spec/30_encoding.md R79,
R80). -/
inductive Listing where
  | done
  | stmt (port : Option Port) (s : Stmt) (rest : Listing)
  | loop (n : Nat) (body rest : Listing)
deriving DecidableEq, Repr

/-- The inputs of the two ports, in order. -/
structure Streams where
  prod : List ProducerInput
  cons : List ConsumerInput
deriving DecidableEq, Repr

/-- One listing's inputs after another's. -/
def Streams.append (a b : Streams) : Streams := ⟨a.prod ++ b.prod, a.cons ++ b.cons⟩

/-- A command word at a port: the one written, else the port of its opcode (spec/30_encoding.md R79). -/
def assembleCommand (port : Option Port) (i : Instr) : Streams :=
  match port.getD (portOf i) with
  | .P => ⟨[.word (encode i)], []⟩
  | .C => ⟨[], [.word (encode i)]⟩

/-- A statement that is no command and stands at one port only (spec/30_encoding.md R78, R80). -/
def assembleAt (own : Port) (port : Option Port) (here : Streams) : Option Streams :=
  if port.getD own = own then some here else none

/-- CONV: two bytes for U = 16; for U = 8 the low byte may be absent, and its value does not matter
(spec/30_encoding.md R78, spec/42_sampler.md R164; log entry 17). -/
def assembleConv (c : Config) (lo : Option Nat) (hi : Nat) : Option Streams :=
  match lo with
  | some l => if l < 256 ∧ hi < 256 then some ⟨[.conv (BitVec.ofNat 8 l) (BitVec.ofNat 8 hi)], []⟩ else none
  | none => if unitWidth c = 8 ∧ hi < 256 then some ⟨[.conv 0 (BitVec.ofNat 8 hi)], []⟩ else none

/-- A statement's inputs, or none where an immediate does not fit its field (spec/30_encoding.md R74, R79). -/
def assembleStmt (c : Config) (t : Nat) (port : Option Port) (s : Stmt) : Option Streams :=
  match s with
  | .push x =>
    if x.eval t < 2 ^ unitWidth c then some (assembleCommand port (.push (BitVec.ofNat 16 (x.eval t)))) else none
  | .read k => if k.eval t < 65536 then some (assembleCommand port (.read (BitVec.ofNat 16 (k.eval t)))) else none
  | .rdoff => some (assembleCommand port .rdoff)
  | .rdstat => some (assembleCommand port .rdstat)
  | .rdsize role => some (assembleCommand port (.rdsize role))
  | .release => some (assembleCommand port .release)
  | .conv lo hi => (assembleConv c (lo.map (·.eval t)) (hi.eval t)).bind (assembleAt .P port)
  | .waitbusy => assembleAt .C port ⟨[], [.waitbusy]⟩
  | .readc j => assembleAt .C port ⟨[], [.readc (j.eval t)]⟩

/-- The inputs of the listings f 0, …, f (n-1), one after another (REPEAT, spec/30_encoding.md R80). -/
def repeatStreams (f : Nat → Option Streams) : Nat → Option Streams
  | 0 => some ⟨[], []⟩
  | n + 1 => (repeatStreams f n).bind fun a => (f n).map a.append

/-- The inputs of a listing; t is the loop counter of the REPEAT around it. -/
def assemble (c : Config) : Listing → Nat → Option Streams
  | .done, _ => some ⟨[], []⟩
  | .stmt p s rest, t => (assembleStmt c t p s).bind fun a => (assemble c rest t).map a.append
  | .loop n body rest, t =>
    (repeatStreams (assemble c body) n).bind fun a => (assemble c rest t).map a.append

/-- A listing's inputs added to what the ports are still to be given, with a schedule for how the ports interleave
(spec/30_encoding.md R79). -/
def State.load (s : State) (p : Streams) (sched : List Agent) : State :=
  { s with prodIn := s.prodIn ++ p.prod, consIn := s.consIn ++ p.cons, sched := s.sched ++ sched }

/-- One cycle of the reference consumer program (spec/43_consumer.md R200): WAITBUSY, RDOFF, READ of every slot,
RELEASE. -/
def foregroundCycle (c : Config) : Listing :=
  .stmt none .waitbusy (.stmt none .rdoff
    (.loop c.bufSize (.stmt none (.read .counter) .done) (.stmt none .release .done)))

/-! ### The text of one line (spec/30_encoding.md R79; a REPEAT block is not one line) -/

/-- A line's text up to its comment. -/
def dropComment (l : List Char) : List Char := l.takeWhile (· ≠ ';')

/-- The words of a line: cut at spaces, tabs and commas, and after each colon. `acc` is the word so far, reversed. -/
def splitWords : List Char → List Char → List (List Char)
  | [], acc => if acc = [] then [] else [acc.reverse]
  | ch :: rest, acc =>
    if ch = ' ' ∨ ch = '\t' ∨ ch = ',' then
      if acc = [] then splitWords rest [] else acc.reverse :: splitWords rest []
    else if ch = ':' then (':' :: acc).reverse :: splitWords rest []
    else splitWords rest (ch :: acc)

/-- A digit's value, in decimal or hexadecimal. -/
def digitValue (hex : Bool) (ch : Char) : Option Nat :=
  let n := ch.toNat
  if 48 ≤ n ∧ n ≤ 57 then some (n - 48)
  else if hex ∧ 65 ≤ n ∧ n ≤ 70 then some (n - 55)
  else if hex ∧ 97 ≤ n ∧ n ≤ 102 then some (n - 87)
  else none

/-- The number a list of digits writes, after `acc`. -/
def digitsValue (hex : Bool) : List Char → Nat → Option Nat
  | [], acc => some acc
  | ch :: rest, acc =>
    (digitValue hex ch).bind fun d => digitsValue hex rest (acc * (if hex then 16 else 10) + d)

/-- decimal, or 0x and hexadecimal (spec/30_encoding.md R79). -/
def parseNumber : List Char → Option Nat
  | [] => none
  | ['0', 'x'] => none
  | '0' :: 'x' :: rest => digitsValue true rest 0
  | ds => digitsValue false ds 0

/-- '#' and a number. -/
def parseImm : List Char → Option Nat
  | '#' :: rest => parseNumber rest
  | _ => none

/-- `key` and a number, as in `hi=0x28`. -/
def parseKeyed (key : List Char) (w : List Char) : Option Nat :=
  if key.isPrefixOf w then parseNumber (w.drop key.length) else none

/-- The statement a line's words write. -/
def parseStmt (ws : List (List Char)) : Option Stmt :=
  match ws with
  | [m] =>
    if m = "RDOFF".toList then some .rdoff
    else if m = "RDSTAT".toList then some .rdstat
    else if m = "RELEASE".toList then some .release
    else if m = "WAITBUSY".toList then some .waitbusy
    else none
  | [m, a] =>
    if m = "PUSH".toList then (parseImm a).map fun n => .push (.lit n)
    else if m = "READ".toList then (parseImm a).map fun n => .read (.lit n)
    else if m = "READC".toList then (parseImm a).map fun n => .readc (.lit n)
    else if m = "RDSIZE".toList then
      if a = "capt".toList then some (.rdsize .capt)
      else if a = "proc".toList then some (.rdsize .proc)
      else none
    else if m = "CONV".toList then (parseKeyed "hi=".toList a).map fun h => .conv none (.lit h)
    else none
  | [m, a, b] =>
    if m = "CONV".toList then
      (parseKeyed "lo=".toList a).bind fun l => (parseKeyed "hi=".toList b).map fun h => .conv (some (.lit l)) (.lit h)
    else none
  | _ => none

/-- The port a word names. -/
def parsePort (w : List Char) : Option Port :=
  if w = "P:".toList then some .P else if w = "C:".toList then some .C else none

/-- The statement with the port written before it. -/
def parsePortStmt (ws : List (List Char)) : Option (Option Port × Stmt) :=
  match ws with
  | [] => none
  | w :: rest =>
    match parsePort w with
    | some p => (parseStmt rest).map fun s => (some p, s)
    | none => (parseStmt ws).map fun s => (none, s)

/-- A line: label, port, statement, comment (spec/30_encoding.md R79). A label names a place for the host's branches
and emits nothing. -/
def parseLine (l : List Char) : Option (Option Port × Stmt) :=
  match splitWords (dropComment l) [] with
  | [] => none
  | w :: rest =>
    if w.getLast? = some ':' ∧ parsePort w = none then parsePortStmt rest else parsePortStmt (w :: rest)

end Sys2Proof.Machine
end

