-- ==== Sys2Proof/Machine/Build.lean ====
section
/-!
DEFINITION. Building a configuration from the source's compile-time options, and refusing an illegal one
(spec/00_scope.md R6, R10); and the timing the source gives, which nothing in the model reads
(spec/60_exceptions.md R241, spec/70_reset_and_hazards.md R270).
-/

namespace Sys2Proof.Machine

/-- The compile-time options as the source enumerates them (spec/00_scope.md R6). -/
structure BuildOptions where
  prescaler : Nat
  widthOverride8 : Option Bool
  bufSize : Nat
  channel : Nat
deriving DecidableEq, Repr

/-- Why a build is refused (spec/00_scope.md R10). -/
inductive BuildError where
  | prescaler | bufSize | channel
deriving DecidableEq, Repr

/-- The legal prescalers (spec/00_scope.md R6). -/
def prescalerOf : Nat → Option Prescaler
  | 4 => some .div4
  | 8 => some .div8
  | 16 => some .div16
  | 32 => some .div32
  | 64 => some .div64
  | 128 => some .div128
  | _ => none

/-- The build: the configuration, or the refusal (spec/00_scope.md R10). An absent override is false (R6). -/
def build (o : BuildOptions) : Except BuildError Config :=
  match prescalerOf o.prescaler with
  | none => .error .prescaler
  | some p =>
    if hN : 1 ≤ o.bufSize ∧ o.bufSize ≤ 65535 then
      if hC : o.channel < 8 then
        .ok { prescaler := p, ovr8 := o.widthOverride8.getD false, bufSize := o.bufSize, channel := ⟨o.channel, hC⟩,
              bufSize_pos := hN.1, bufSize_le := hN.2 }
      else .error .channel
    else .error .bufSize

/-- The sampler clock, F_SYS / P (spec/60_exceptions.md R241), in whole hertz and rounded down where P does not divide
F_SYS: DESIGN CHOICE (safe, log entry 26), since the spec gives no rounding. Timing only; nothing reads it. -/
def samplerClock (fSys : Nat) (c : Config) : Nat := fSys / prescalerValue c.prescaler

/-- A conversion's length in system clocks: 13·P, and about 25·P for the first one after enabling
(spec/70_reset_and_hazards.md R270; PRESUMED by the spec to count sampler clocks, log entry 18). Timing only. -/
def conversionClocks (first : Bool) (c : Config) : Nat :=
  (if first then 25 else 13) * prescalerValue c.prescaler

end Sys2Proof.Machine
end

