-- ==== Sys2Proof/Safety.lean ====
section
/-!
DEFINITION. What claims are stated in: the invariants of spec/10_state.md R22, R38 to R41 and spec/42_sampler.md
R168 to R170, the consumer's hold, and the end of a finite run (spec/70_reset_and_hazards.md R272).
-/

namespace Sys2Proof.Machine

/-- Every unit of a ring lies in a slot of its storage and has U bits (spec/10_state.md R32). -/
def unitsFit (c : Config) (m : Memory) : Bool :=
  m.all fun cell => decide (cell.1 < c.bufSize) && decide (cell.2.toNat < 2 ^ unitWidth c)

/-- The slots the last `size` writes of a ring went to have been written: those at distance 1 to size behind the
index (spec/40_ring.md R108, R109). -/
def recentWritten (c : Config) (r : Ring) : Bool :=
  (List.range r.size.toNat).all fun j => r.wr ((r.i.toNat + (c.bufSize - (j + 1))) % c.bufSize)

/-- A ring in good order: i < N, size ≤ N (spec/10_state.md R22), storage in canonical form, its units fitting, its
counted slots written. -/
def Ring.ok (c : Config) (r : Ring) : Bool :=
  decide (r.i.toNat < c.bufSize) && decide (r.size.toNat ≤ c.bufSize) && r.mem.wf && unitsFit c r.mem
    && recentWritten c r

/-- Both rings are in good order. -/
abbrev State.RingsOk (s : State) : Prop := s.ping.ok s.cfg = true ∧ s.pong.ok s.cfg = true

/-- proc.size = N while busy, 0 otherwise (spec/10_state.md R39). -/
abbrev State.ProcCount (s : State) : Prop := s.proc.size.toNat = if s.busy then s.cfg.bufSize else 0

/-- The field a setting of spec/42_sampler.md R168 writes holds that setting's value. GIE is left out: the main
context may mask it again (spec/60_exceptions.md R235). -/
def settingHolds (c : Config) (p : SamplerCtl) : InitStep → Bool
  | .conversionEnable => p.en
  | .autoTrigger => p.trig == .freeRun
  | .completionInterrupt => p.ie
  | .prescaler => p.presc == c.prescaler
  | .reference => p.ref == .external
  | .justification => p.just == justification c
  | .inputBuffers => p.didis == 0xFF#8
  | .multiplexer => p.mux == c.channel
  | .globalInterrupts => true
  | .firstConversion => p.start

/-- At most ten settings are done, those done hold, and the first conversion is triggered only by the tenth
(spec/42_sampler.md R168 to R170, spec/10_state.md R31). -/
abbrev State.SamplerOk (s : State) : Prop :=
  s.smp.initDone ≤ 10 ∧
    (∀ st ∈ initSequence, st.number ≤ s.smp.initDone → settingHolds s.cfg s.smp st = true) ∧
    (s.smp.start = true → s.smp.running = true)

/-- The invariant of the machine. -/
abbrev State.Inv (s : State) : Prop := s.RingsOk ∧ s.ProcCount ∧ s.SamplerOk

/-- Capturing and Draining (spec/10_state.md R28): busy itself. -/
def State.capturing (s : State) : Bool := !s.busy

/-- The consumer is held in WAITBUSY (spec/43_consumer.md R198). -/
def State.held (s : State) : Bool := !s.busy && s.consIn.head? == some .waitbusy

/-- The end of a finite run: both ports' streams are used up, no fault is recorded, the consumer is not held
(spec/70_reset_and_hazards.md R272). It does not say that the block stops. -/
def State.final (s : State) : Bool := s.prodIn.isEmpty && s.consIn.isEmpty && s.fault.isNone && !s.held

/-- The block right after reset, whatever its configuration, its inputs, and the sampler fields the spec leaves
unspecified there (spec/10_state.md R37, spec/70_reset_and_hazards.md R260). -/
structure State.PoweredOn (s : State) : Prop where
  ping : s.ping = Ring.fresh
  pong : s.pong = Ring.fresh
  sel : s.sel = .ping
  busy : s.busy = false
  fault : s.fault = none
  start : s.smp.start = false
  initDone : s.smp.initDone = 0
  posP : s.posP = 0
  posC : s.posC = 0

/-- k steps, up to the first that is not a next state. -/
def steps : Nat → State → Result
  | 0, s => .next s
  | k + 1, s =>
    match step s with
    | .next t => steps k t
    | .fault f => .fault f
    | .refused r => .refused r

/-- The commands of a list, one after another, up to the first that is not a next state. -/
def execAll : List Instr → State → Result
  | [], s => .next s
  | i :: rest, s =>
    match exec i s with
    | .next t => execAll rest t
    | .fault f => .fault f
    | .refused r => .refused r

/-- The samples of a list written to a ring, one after another (spec/40_ring.md R101). -/
def ringWrites (c : Config) : Ring → List Half → Ring
  | r, [] => r
  | r, x :: rest => ringWrites c (ringWrite c r x) rest

/-- A PUSH of each sample. -/
def pushes (xs : List Half) : List Instr := xs.map .push

/-- The ring's slots hold the samples of xs in time order, the oldest at the ring's index (spec/40_ring.md R108). -/
def Ring.holdsInOrder (c : Config) (r : Ring) (xs : List Half) : Prop :=
  ∀ j (h : j < xs.length), r.mem.read ((r.i.toNat + j) % c.bufSize) = some xs[j]

end Sys2Proof.Machine
end

