-- ==== Sys2Proof/Certificates/Slice0/Obligations.lean ====
section
/-!
DEFINITION. The statements for the provers. Each docstring names the rule of spec/ it formalises, or says that it rests
on a choice of the model's and names the log entry.
-/

open Sys2Proof Sys2Proof.Machine

/-! ### Encoding and decoding -/

/-- spec/30_encoding.md R71, R73 to R75: a well-formed command's word, at its own port, decodes to that command. -/
def Obligations.DecodeOfEncode : Prop :=
  ∀ (c : Config) (i : Instr), i.wellFormed c = true → decode c (portOf i) (encode i) = .ok i

/-- spec/30_encoding.md R71 to R75: a word that decodes at a port is the one word of its command, which is well formed
and belongs to that port. -/
def Obligations.EncodeOfDecode : Prop :=
  ∀ (c : Config) (p : Port) (w : CmdWord) (i : Instr), decode c p w = .ok i →
    p = portOf i ∧ w = encode i ∧ i.wellFormed c = true

/-- spec/30_encoding.md R75: the checks of decode in their order, on the numbers the word's fields are; and a word that
fails decode changes nothing but the fault mark. -/
def Obligations.DecodeChecksInOrder : Prop :=
  ∀ (c : Config) (p : Port) (w : CmdWord),
    (decode c p w =
      let op := w.toNat / 2 ^ 28
      let rsv := w.toNat / 2 ^ 16 % 2 ^ 12
      let imm := w.toNat % 2 ^ 16
      if op = 0 ∨ 7 ≤ op then .error .illegalOp
      else if p ≠ (if op = 1 then .P else .C) then .error .wrongPort
      else if rsv ≠ 0 then .error .reservedBits
      else if op = 1 then
        if unitWidth c = 8 ∧ 2 ^ 8 ≤ imm then .error .reservedBits else .ok (.push (BitVec.ofNat 16 imm))
      else if op = 2 then .ok (.read (BitVec.ofNat 16 imm))
      else if op = 5 then
        if 2 ≤ imm then .error .reservedBits else .ok (.rdsize (if imm = 1 then .proc else .capt))
      else if imm ≠ 0 then .error .reservedBits
      else if op = 3 then .ok .rdoff
      else if op = 4 then .ok .rdstat
      else .ok .release) ∧
    ∀ (s : State) (e : DecodeError), s.fault = none → decode s.cfg p w = .error e →
      presentWord p w s = .next { s with fault := some (faultOfDecode p w e) }

/-- spec/30_encoding.md R81: the words of its table, encoded and decoded. -/
def Obligations.WordsOfTheEncodingTable : Prop :=
  ∀ c : Config,
    (unitWidth c = 8 → encode (.push 40) = 0x10000028#32 ∧ decode c .P 0x10000028#32 = .ok (.push 40)) ∧
    (unitWidth c = 16 → encode (.push 0x1FF) = 0x100001FF#32 ∧ decode c .P 0x100001FF#32 = .ok (.push 0x1FF)) ∧
    (unitWidth c = 8 →
      (Instr.push 0x1FF).wellFormed c = false ∧ decode c .P 0x100001FF#32 = .error .reservedBits) ∧
    (encode (.read 3) = 0x20000003#32 ∧ decode c .C 0x20000003#32 = .ok (.read 3)) ∧
    (encode .rdoff = 0x30000000#32 ∧ decode c .C 0x30000000#32 = .ok .rdoff) ∧
    (encode .rdstat = 0x40000000#32 ∧ decode c .C 0x40000000#32 = .ok .rdstat) ∧
    (encode (.rdsize .capt) = 0x50000000#32 ∧ decode c .C 0x50000000#32 = .ok (.rdsize .capt)) ∧
    (encode (.rdsize .proc) = 0x50000001#32 ∧ decode c .C 0x50000001#32 = .ok (.rdsize .proc)) ∧
    (encode .release = 0x60000000#32 ∧ decode c .C 0x60000000#32 = .ok .release)

/-! ### Configuration and reset -/

/-- spec/42_sampler.md R160 to R163: W, W', U and J for every prescaler and override; any other prescaler is refused. -/
def Obligations.WidthsFollowPrescaler : Prop :=
  (∀ c : Config,
    sampleWidth c.prescaler =
      (match prescalerValue c.prescaler with | 4 => 5 | 8 => 7 | 16 => 8 | _ => 9) ∧
    effectiveWidth c = (if c.ovr8 = true ∧ sampleWidth c.prescaler = 9 then 8 else sampleWidth c.prescaler) ∧
    unitWidth c = (if effectiveWidth c ≤ 8 then 8 else 16) ∧
    (justification c = .left ↔ effectiveWidth c ≤ 8) ∧ (justification c = .right ↔ 8 < effectiveWidth c)) ∧
  ∀ o : BuildOptions, o.prescaler ∉ [4, 8, 16, 32, 64, 128] → build o = .error .prescaler

/-- spec/00_scope.md R10, R6: the build gives the configuration of the options exactly where every one is legal. -/
def Obligations.IllegalBuildRefused : Prop :=
  ∀ o : BuildOptions,
    (o.prescaler ∈ [4, 8, 16, 32, 64, 128] ∧ 1 ≤ o.bufSize ∧ o.bufSize ≤ 65535 ∧ o.channel ≤ 7 →
      ∃ c, build o = .ok c ∧ prescalerValue c.prescaler = o.prescaler ∧ c.ovr8 = o.widthOverride8.getD false ∧
        c.bufSize = o.bufSize ∧ c.channel.val = o.channel) ∧
    (¬(o.prescaler ∈ [4, 8, 16, 32, 64, 128] ∧ 1 ≤ o.bufSize ∧ o.bufSize ≤ 65535 ∧ o.channel ≤ 7) →
      ∃ e, build o = .error e)

/-- spec/10_state.md R37: the reset values it gives, for every configuration. The sampler fields it leaves unspecified
are not in the statement. -/
def Obligations.ResetValues : Prop :=
  ∀ c : Config,
    let s := State.resetWith c
    s.cfg = c ∧ s.ping.i = 0 ∧ s.pong.i = 0 ∧ s.ping.size = 0 ∧ s.pong.size = 0 ∧
    (∀ r k, (s.ring r).mem.read k = none ∧ (s.ring r).wr k = false) ∧
    (∀ k : Half, k.toNat < c.bufSize →
      exec (.read k) s = .next { s with fault := some (.unwrittenRead (encode (.read k)) .pong k) }) ∧
    s.sel = .ping ∧ s.busy = false ∧ s.stat = 0 ∧ s.smp.start = false ∧ s.smp.running = false ∧ s.fault = none ∧
    s.posP = 0 ∧ s.posC = 0

/-! ### PUSH -/

/-- spec/41_producer.md R130, spec/40_ring.md R101, R106: PUSH completes, stores IMM[U-1:0] at capt's index, moves the
index on by 1 modulo N, raises the count up to N, and promotes exactly when no frame is in flight and the count has
reached N. -/
def Obligations.PushStoresAndPromotes : Prop :=
  ∀ (s : State) (x : Half), s.fault = none → s.RingsOk →
    let N := s.cfg.bufSize
    let r := s.capt
    ∃ t, exec (.push x) s = .next t ∧
      (t.ring s.sel).mem.read r.i.toNat = some (BitVec.ofNat 16 (x.toNat % 2 ^ unitWidth s.cfg)) ∧
      (t.ring s.sel).i.toNat = (r.i.toNat + 1) % N ∧
      (t.ring s.sel).size.toNat = min (r.size.toNat + 1) N ∧
      t.busy = (s.busy || decide (N ≤ r.size.toNat + 1)) ∧
      t.sel = (if s.busy = false ∧ N ≤ r.size.toNat + 1 then s.sel.other else s.sel)

/-- spec/41_producer.md R130: what PUSH leaves unchanged: proc, every slot of capt but the one at its index, and every
field but the rings, sel and busy. -/
def Obligations.PushFrame : Prop :=
  ∀ (s t : State) (x : Half), exec (.push x) s = .next t →
    t.ring s.sel.other = s.ring s.sel.other ∧
    (∀ k, k ≠ s.capt.i.toNat → (t.ring s.sel).mem.read k = s.capt.mem.read k) ∧
    t = { s with ping := t.ping, pong := t.pong, sel := t.sel, busy := t.busy }

/-- spec/41_producer.md R134: PUSH is enabled in every state without a fault mark, and raises none. -/
def Obligations.PushNeverWaits : Prop :=
  ∀ (s : State) (x : Half), s.fault = none → ∃ t, exec (.push x) s = .next t ∧ t.fault = none

/-! ### The consumer's commands -/

/-- spec/43_consumer.md R190: READ of a written slot responds with its unit and changes nothing else; the unit has U
bits, so the response is its zero extension. -/
def Obligations.ReadRespondsWithUnit : Prop :=
  ∀ (s : State) (k v : Half), s.fault = none → k.toNat < s.cfg.bufSize → s.proc.mem.read k.toNat = some v →
    exec (.read k) s = .next { s with responses := s.responses ++ [v] } ∧
    (s.RingsOk → v.toNat < 2 ^ unitWidth s.cfg)

/-- spec/43_consumer.md R190, spec/40_ring.md R104: READ raises F4 for k ≥ N, and for k < N raises F5 for a slot that
nothing has written, each with the command word and the index. -/
def Obligations.ReadFaultsOnRangeThenUnwritten : Prop :=
  ∀ (s : State) (k : Half), s.fault = none →
    let w : CmdWord := BitVec.ofNat 32 (0x20000000 + k.toNat)
    (s.cfg.bufSize ≤ k.toNat → exec (.read k) s = .next { s with fault := some (.indexRange w k) }) ∧
    (k.toNat < s.cfg.bufSize → s.proc.mem.read k.toNat = none →
      exec (.read k) s = .next { s with fault := some (.unwrittenRead w s.sel.other k) })

/-- spec/43_consumer.md R191: RDOFF responds with proc's index. -/
def Obligations.RdoffRespondsWithOffset : Prop :=
  ∀ s : State, s.fault = none →
    exec .rdoff s = .next { s with responses := s.responses ++ [(s.ring s.sel.other).i] }

/-- spec/43_consumer.md R192, spec/10_state.md R30: RDSTAT responds with BUSY in bit 0, CSEL in bit 1, CFULL in bit 2
and zeros above. -/
def Obligations.RdstatRespondsWithStatus : Prop :=
  ∀ s : State, s.fault = none →
    ∃ v : Half, exec .rdstat s = .next { s with responses := s.responses ++ [v] } ∧
      v.getLsbD 0 = s.busy ∧ v.getLsbD 1 = decide (s.sel = .pong) ∧
      v.getLsbD 2 = decide ((s.ring s.sel).size.toNat = s.cfg.bufSize) ∧
      ∀ b, 3 ≤ b → v.getLsbD b = false

/-- spec/43_consumer.md R193: RDSIZE responds with the count of capt (role 0) or proc (role 1). -/
def Obligations.RdsizeRespondsWithCount : Prop :=
  ∀ (s : State) (role : Role), s.fault = none →
    exec (.rdsize role) s = .next { s with
      responses := s.responses ++ [match role with
        | .capt => (s.ring s.sel).size
        | .proc => (s.ring s.sel.other).size] }

/-- spec/43_consumer.md R194: RELEASE completes with proc's count and busy at 0; proc's index and storage, capt, and
every other field stay. -/
def Obligations.ReleaseClearsProcAndBusy : Prop :=
  ∀ s : State, s.fault = none →
    ∃ t, exec .release s = .next t ∧ t.busy = false ∧
      t.ring s.sel.other = { s.ring s.sel.other with size := 0 } ∧
      t.ring s.sel = s.ring s.sel ∧
      t = { s with ping := t.ping, pong := t.pong, busy := t.busy }

/-- spec/20_memory.md R56, spec/43_consumer.md R194: a second RELEASE changes nothing, and neither does the first one
while busy = 0. -/
def Obligations.ReleaseIdempotent : Prop :=
  ∀ s t : State, exec .release s = .next t →
    exec .release t = .next t ∧ (s.ProcCount → s.busy = false → t = s)

/-- spec/20_memory.md R56, spec/43_consumer.md R190 to R193: READ, RDOFF, RDSTAT and RDSIZE change nothing but the
responses, by one, or the fault mark; and a second one in a row responds with the same value. -/
def Obligations.ReadsHaveNoSideEffect : Prop :=
  ∀ (i : Instr) (s t : State), (∀ x, i ≠ .push x) → i ≠ .release → exec i s = .next t →
    t = { s with responses := t.responses, fault := t.fault } ∧
    (t.fault ≠ none → t.responses = s.responses) ∧
    (t.fault = none → ∃ v, t.responses = s.responses ++ [v] ∧
      exec i t = .next { t with responses := t.responses ++ [v] })

/-- spec/20_memory.md R50, R58: no consumer command depends on capt's storage or changes it. -/
def Obligations.CaptStorageHiddenFromConsumer : Prop :=
  ∀ (i : Instr) (s t : State) (m : Memory), (∀ x, i ≠ .push x) → exec i s = .next t →
    t.sel = s.sel ∧ t.capt = s.capt ∧
    exec i (s.setRing s.sel { s.capt with mem := m }) = .next (t.setRing s.sel { s.capt with mem := m })

/-- spec/20_memory.md R58: PUSH depends on nothing of the consumer's ring. -/
def Obligations.ProcHiddenFromProducer : Prop :=
  ∀ (s t : State) (x : Half) (r : Ring), exec (.push x) s = .next t →
    exec (.push x) (s.setRing s.sel.other r) = .next (t.setRing s.sel.other r)

/-! ### Faults -/

/-- spec/60_exceptions.md R231, R232: the fault of a word at a port: the first of F1 to F5 whose cause holds, with what
the table says it records; none where no cause holds. -/
def Obligations.FirstFaultOfAWord : Prop :=
  ∀ (s : State) (p : Port) (w : CmdWord), s.fault = none →
    s.sched.head? = some (agentOfPort p) →
    (p = .P → s.prodIn.head? = some (.word w)) → (p = .C → s.consIn.head? = some (.word w)) →
    let op := w.toNat / 2 ^ 28
    let rsv := w.toNat / 2 ^ 16 % 2 ^ 12
    let imm := w.toNat % 2 ^ 16
    ∃ t, step s = .next t ∧
      t.fault =
        if op = 0 ∨ 7 ≤ op then some (.illegalOp p w)
        else if p ≠ (if op = 1 then .P else .C) then some (.wrongPort p w)
        else if rsv ≠ 0 ∨ (op = 1 ∧ unitWidth s.cfg = 8 ∧ 2 ^ 8 ≤ imm) ∨ (op = 5 ∧ 2 ≤ imm) ∨
            ((op = 3 ∨ op = 4 ∨ op = 6) ∧ imm ≠ 0) then some (.reservedBits p w)
        else if op = 2 ∧ s.cfg.bufSize ≤ imm then some (.indexRange w (BitVec.ofNat 16 imm))
        else if op = 2 ∧ s.proc.mem.read imm = none then some (.unwrittenRead w s.sel.other (BitVec.ofNat 16 imm))
        else none

/-- spec/60_exceptions.md R233, and the model's reading of it in log entry 5 (DEDUCED): a step that raises a fault
changes nothing but the mark, so it returns no response; that it is not accepted (position, input and schedule stay),
and that a faulted state's step answers the outcome `.fault` on any agent's turn, is log entry 5. A faulted state is
not final. -/
def Obligations.FaultedStateIsQuiescent : Prop :=
  (∀ s t : State, step s = .next t → t.fault ≠ none → ∃ f, t = { s with fault := some f }) ∧
  ∀ (s : State) (f : Fault), s.fault = some f →
    step s = .fault f ∧ (∀ i, exec i s = .fault f) ∧ s.final = false

/-! ### The step -/

/-- spec/20_memory.md R59, spec/10_state.md R25: the word at the head of a port's input, on that port's turn, is run as
the command it decodes to. A command that raises no fault is accepted: the turn and the word are used up and the
port's position advances by 1. One that raises a fault leaves nothing but its mark (spec/60_exceptions.md R233): that its
position, input and turn stay as they were is the model's choice, log entry 5. -/
def Obligations.StepRunsDecodedCommand : Prop :=
  ∀ (s t : State) (p : Port) (w : CmdWord) (i : Instr), s.fault = none →
    s.sched.head? = some (agentOfPort p) →
    (p = .P → s.prodIn.head? = some (.word w)) → (p = .C → s.consIn.head? = some (.word w)) →
    decode s.cfg p w = .ok i → exec i s = .next t →
    (t.fault = none →
      step s = .next (match p with
        | .P => { t with sched := s.sched.tail, prodIn := s.prodIn.tail, posP := s.posP + 1 }
        | .C => { t with sched := s.sched.tail, consIn := s.consIn.tail, posC := s.posC + 1 })) ∧
    (t.fault ≠ none → step s = .next t)

/-- The model's own choice (log entry 3): with no turn left nothing changes, and the turn of an agent with no input
uses up the turn alone. -/
def Obligations.IdleTurnChangesNothing : Prop :=
  ∀ s : State, s.fault = none →
    (s.sched = [] → step s = .next s) ∧
    ((s.sched.head? = some .producer ∧ s.prodIn = []) ∨ (s.sched.head? = some .consumer ∧ s.consIn = []) ∨
        (s.sched.head? = some .host ∧ s.hostIn = []) →
      step s = .next { s with sched := s.sched.tail })

/-- spec/00_scope.md R6, spec/10_state.md R29, R25: no step changes the configuration; responses are only added; a
position moves by at most 1, the producer's on its own turn and the consumer's on its own. Which inputs a position
counts is the model's choice (log entries 8, 9 and 25). -/
def Obligations.StepKeepsConfigAndPositions : Prop :=
  ∀ s t : State, step s = .next t →
    t.cfg = s.cfg ∧ s.responses <+: t.responses ∧
    (t.posP = s.posP ∨ t.posP = s.posP + 1 ∧ s.sched.head? = some .producer) ∧
    (t.posC = s.posC ∨ t.posC = s.posC + 1 ∧ s.sched.head? = some .consumer) ∧
    (s.sched.head? ≠ some .consumer → t.responses = s.responses) ∧
    (s.sched.head? ≠ some .host → t.smp = s.smp ∧ t.hostIn = s.hostIn)

/-! ### Invariants -/

/-- spec/10_state.md R22, R39, spec/40_ring.md R109, spec/42_sampler.md R168, R170: every step keeps the invariant:
both rings have i < N, size ≤ N, storage in canonical form with fitting units and every counted slot written; proc's
count is N while busy and 0 otherwise; the sampler's settings done so far hold. -/
def Obligations.StepKeepsInvariant : Prop :=
  ∀ s t : State, s.Inv → step s = .next t → t.Inv

/-- spec/10_state.md R37: a block right after reset meets the invariant, whatever its configuration and inputs. -/
def Obligations.InvariantAfterReset : Prop :=
  (∀ s : State, s.PoweredOn → s.Inv) ∧ (∀ c, (State.resetWith c).PoweredOn) ∧ State.reset.Inv

/-- spec/10_state.md R39: in every state reached from reset, under any configuration, inputs and schedule, proc's count
is N while busy and 0 otherwise. -/
def Obligations.ReachableProcCount : Prop :=
  ∀ (s t : State) (k : Nat), s.PoweredOn → steps k s = .next t →
    t.proc.size.toNat = if t.busy = true then t.cfg.bufSize else 0

/-- spec/10_state.md R40: while busy every slot of proc is written, so READ of any slot responds and raises no F5. -/
def Obligations.PublishedFrameFullyWritten : Prop :=
  ∀ s : State, s.Inv → s.busy = true →
    (∀ k, k < s.cfg.bufSize → s.proc.wr k = true) ∧
    ∀ k : Half, s.fault = none → k.toNat < s.cfg.bufSize →
      ∃ v, exec (.read k) s = .next { s with responses := s.responses ++ [v] }

/-- spec/10_state.md R41: right after a promotion the new capt has count 0 and the index proc had before. -/
def Obligations.NewCaptEmptyAtPromotion : Prop :=
  ∀ (s t : State) (x : Half), s.Inv → exec (.push x) s = .next t → s.busy = false → t.busy = true →
    t.capt.size = 0 ∧ t.capt.i = s.proc.i

/-! ### The switchboard -/

/-- spec/41_producer.md R131: in every step busy rises exactly when sel is inverted, and only a producer step does
either; among the commands only PUSH does. -/
def Obligations.PromotionIsAtomic : Prop :=
  (∀ s t : State, step s = .next t →
    ((s.busy = false ∧ t.busy = true) ↔ t.sel ≠ s.sel) ∧
    (t.sel ≠ s.sel → s.sched.head? = some .producer)) ∧
  ∀ (i : Instr) (s t : State), exec i s = .next t →
    ((s.busy = false ∧ t.busy = true) ↔ t.sel ≠ s.sel) ∧ (t.sel ≠ s.sel → ∃ x, i = .push x)

/-- spec/41_producer.md R132: while busy no PUSH and no producer step changes sel, busy or anything of proc. -/
def Obligations.NoRotationWhileBusy : Prop :=
  (∀ (s t : State) (x : Half), s.busy = true → exec (.push x) s = .next t →
    t.sel = s.sel ∧ t.busy = true ∧ t.proc = s.proc) ∧
  ∀ s t : State, s.busy = true → s.sched.head? = some .producer → step s = .next t →
    t.sel = s.sel ∧ t.busy = true ∧ t.proc = s.proc

/-- spec/20_memory.md R61: while busy every step leaves proc the same ring with the same storage, index and count; the
one step that lowers busy is a consumer's, and it changes the count alone. -/
def Obligations.FrameStableWhileBusy : Prop :=
  ∀ s t : State, s.busy = true → step s = .next t →
    t.sel = s.sel ∧ t.proc.mem = s.proc.mem ∧ t.proc.i = s.proc.i ∧
    (t.busy = true → t.proc = s.proc) ∧
    (t.busy = false → s.sched.head? = some .consumer ∧ t.proc.size = 0)

/-- spec/41_producer.md R137: with busy = 0, PUSHes promote at the one that first leaves capt full, which is the next
if capt is full already and else the one that brings its count to N; none before it promotes. -/
def Obligations.PromotionAtFirstFullPush : Prop :=
  ∀ (s : State) (xs : List Half), s.fault = none → s.Inv → s.busy = false →
    let m := max 1 (s.cfg.bufSize - s.capt.size.toNat)
    xs.length ≤ m →
    ∃ t, execAll (pushes xs) s = .next t ∧
      (xs.length < m → t.busy = false ∧ t.sel = s.sel) ∧
      (xs.length = m → t.busy = true ∧ t.sel = s.sel.other)

/-- spec/60_exceptions.md R236: the exact race, in both orders: released first, the filling PUSH promotes; pushed
first, it does not, and the next PUSH after the release does. -/
def Obligations.ExactRaceBothOrders : Prop :=
  ∀ (s : State) (x y : Half), s.fault = none → s.Inv → s.busy = true →
    s.capt.size.toNat + 1 = s.cfg.bufSize →
    (∃ t, execAll [.release, .push x] s = .next t ∧ t.busy = true ∧ t.sel = s.sel.other) ∧
    (∃ t, execAll [.push x, .release] s = .next t ∧ t.busy = false ∧ t.sel = s.sel ∧
      t.capt.size.toNat = s.cfg.bufSize) ∧
    (∃ t, execAll [.push x, .release, .push y] s = .next t ∧ t.busy = true ∧ t.sel = s.sel.other)

/-! ### Counts, order, and the content of a frame -/

/-- spec/40_ring.md R109: the index and the count after k writes; from a fresh ring, full exactly when k ≥ N; and N
writes in a row go to every slot exactly once. -/
def Obligations.CountLaws : Prop :=
  (∀ (c : Config) (r : Ring) (xs : List Half), r.i.toNat < c.bufSize → r.size.toNat ≤ c.bufSize →
    (ringWrites c r xs).i.toNat = (r.i.toNat + xs.length) % c.bufSize ∧
    (ringWrites c r xs).size.toNat = min (r.size.toNat + xs.length) c.bufSize) ∧
  (∀ (c : Config) (xs : List Half),
    (ringWrites c Ring.fresh xs).size.toNat = min xs.length c.bufSize ∧
    (ringFull c (ringWrites c Ring.fresh xs) = true ↔ c.bufSize ≤ xs.length)) ∧
  ∀ (c : Config) (r : Ring) (k : Nat), r.i.toNat < c.bufSize → k < c.bufSize →
    ∃ j < c.bufSize, (∀ xs : List Half, xs.length = j → (ringWrites c (ringClear r) xs).i.toNat = k) ∧
      ∀ j' < c.bufSize, (∀ xs : List Half, xs.length = j' → (ringWrites c (ringClear r) xs).i.toNat = k) → j' = j

/-- spec/40_ring.md R108: in a full ring the j-th oldest sample stands at physical slot (i + j) mod N, for whatever was
written since it was last empty; and so do the last N samples after any N or more writes. -/
def Obligations.OrderLaw : Prop :=
  ∀ (c : Config) (r : Ring) (xs : List Half), r.i.toNat < c.bufSize →
    (r.size = 0 → ringFull c (ringWrites c r xs) = true →
      (ringWrites c r xs).holdsInOrder c (xs.drop (xs.length - c.bufSize))) ∧
    (c.bufSize ≤ xs.length → (ringWrites c r xs).holdsInOrder c (xs.drop (xs.length - c.bufSize)))

/-- spec/41_producer.md R139: from an empty capt with busy = 0, N PUSHes promote, and the frame is exactly those N
samples in time order, the oldest at proc's index. -/
def Obligations.FrameIsTheNSamples : Prop :=
  ∀ (s : State) (xs : List Half), s.fault = none → s.Inv → s.busy = false → s.capt.size = 0 →
    xs.length = s.cfg.bufSize → (∀ x ∈ xs, x.toNat < 2 ^ unitWidth s.cfg) →
    ∃ t, execAll (pushes xs) s = .next t ∧ t.busy = true ∧ t.procId = s.sel ∧ t.proc.i = s.capt.i ∧
      t.proc.holdsInOrder t.cfg xs

/-- spec/41_producer.md R139, R133: if capt fills while busy, it overruns; the first PUSH after the release promotes,
and the frame is the last N samples written. -/
def Obligations.OverrunFrameIsTheLastN : Prop :=
  ∀ (s : State) (xs : List Half) (y : Half), s.fault = none → s.Inv → s.busy = true → s.capt.size = 0 →
    s.cfg.bufSize ≤ xs.length → (∀ x ∈ xs ++ [y], x.toNat < 2 ^ unitWidth s.cfg) →
    ∃ t, execAll (pushes xs ++ [.release, .push y]) s = .next t ∧ t.busy = true ∧ t.procId = s.sel ∧
      t.proc.holdsInOrder t.cfg ((xs ++ [y]).drop (xs.length + 1 - s.cfg.bufSize))

/-- spec/70_reset_and_hazards.md R264: a RELEASE before the N-th PUSH after a promotion loses no sample: that PUSH
promotes exactly the N samples. -/
def Obligations.ReleaseInTimeLosesNothing : Prop :=
  ∀ (s : State) (xs ys : List Half), s.fault = none → s.Inv → s.busy = true → s.capt.size = 0 →
    xs.length + ys.length = s.cfg.bufSize → ys ≠ [] → (∀ x ∈ xs ++ ys, x.toNat < 2 ^ unitWidth s.cfg) →
    ∃ t, execAll (pushes xs ++ .release :: pushes ys) s = .next t ∧ t.busy = true ∧ t.procId = s.sel ∧
      t.proc.holdsInOrder t.cfg (xs ++ ys)

/-! ### The sampler -/

/-- spec/41_producer.md R135, spec/42_sampler.md R164: an enabled CONV acts as PUSH of the acquired sample: the high
byte for U = 8, the high byte above the low byte for U = 16. That the event advances port P's position is the model's
choice (log entry 25). -/
def Obligations.ConvActsAsPush : Prop :=
  ∀ (s : State) (lo hi : Byte) (rest : List ProducerInput), s.fault = none → s.sched.head? = some .producer →
    s.prodIn = .conv lo hi :: rest → s.smp.initDone = 10 → s.smp.ie = true → s.smp.gie = true →
    ∃ t, exec (.push (BitVec.ofNat 16 (if unitWidth s.cfg = 8 then hi.toNat else hi.toNat * 2 ^ 8 + lo.toNat))) s =
        .next t ∧
      step s = .next { t with sched := s.sched.tail, prodIn := rest, posP := s.posP + 1 }

/-- spec/42_sampler.md R170, spec/60_exceptions.md R234, R235: before the ten settings are done, and while the
interrupt is masked, a conversion-complete event has no step and stays pending (log entries 3 and 12). -/
def Obligations.ConvWaitsUntilEnabled : Prop :=
  ∀ (s : State) (lo hi : Byte), s.fault = none → s.sched.head? = some .producer →
    (s.prodIn.head? = some (.conv lo hi) ∨ s.prodIn.head? = some (.convHighFirst lo hi)) →
    (s.smp.initDone ≠ 10 ∨ s.smp.ie = false ∨ s.smp.gie = false) →
    step s = .next { s with sched := s.sched.tail }

/-- spec/42_sampler.md R166: a 2-byte sample read high byte first is one free value, stored as any sample is; the
bytes read do not matter. It holds whatever the value is (log entry 13). That the event advances port P's position is
the model's choice (log entry 25). -/
def Obligations.WrongReadOrderGlitchesOneSample : Prop :=
  ∀ (s : State) (lo hi : Byte) (rest : List ProducerInput), s.fault = none → s.sched.head? = some .producer →
    s.prodIn = .convHighFirst lo hi :: rest → s.smp.initDone = 10 → s.smp.ie = true → s.smp.gie = true →
    unitWidth s.cfg = 16 →
    ∃ t, exec (.push (Config.glitchedSample s.draws)) s = .next t ∧
      step s = .next { t with sched := s.sched.tail, prodIn := rest, posP := s.posP + 1, draws := s.draws + 1 }

/-- spec/42_sampler.md R168: the ten settings in order write the fields with the values of its table; running holds
after the tenth and not before (R170). -/
def Obligations.InitialisationWritesTheSettings : Prop :=
  ∀ (s : State) (rest : List HostInput) (sc : List Agent), s.fault = none → s.smp.initDone = 0 →
    s.hostIn = initSequence.map .setting ++ rest → s.sched = List.replicate 10 .host ++ sc →
    steps 10 s = .next { s with
      smp := { en := true, trig := .freeRun, ie := true, presc := s.cfg.prescaler, ref := .external,
               just := if effectiveWidth s.cfg ≤ 8 then .left else .right, didis := 0xFF#8, mux := s.cfg.channel,
               gie := true, start := true, initDone := 10 }
      hostIn := rest
      sched := sc } ∧
    (∀ t, steps 10 s = .next t → t.smp.running = true) ∧
    ∀ k t, k < 10 → steps k s = .next t → t.smp.running = false

/-- The model's own refusal (log entry 11) of what spec/42_sampler.md R169 forbids: a setting out of order, and global
interrupts enabled before the settings are done. -/
def Obligations.SettingsOutOfOrderRefused : Prop :=
  ∀ s : State,
    (∀ st, st.number ≠ s.smp.initDone + 1 → hostAction (.setting st) s = .refused (.settingOutOfOrder st)) ∧
    (s.smp.initDone < 9 → hostAction .unmask s = .refused .unmaskBeforeSettings)

/-- spec/60_exceptions.md R235: the main context masks and unmasks global interrupts; nothing else changes. -/
def Obligations.MaskingWritesGieAlone : Prop :=
  ∀ (s : State) (rest : List HostInput), s.fault = none → s.sched.head? = some .host →
    (s.hostIn = .mask :: rest →
      step s = .next { s with smp := { s.smp with gie := false }, hostIn := rest, sched := s.sched.tail }) ∧
    (s.hostIn = .unmask :: rest → 9 ≤ s.smp.initDone →
      step s = .next { s with smp := { s.smp with gie := true }, hostIn := rest, sched := s.sched.tail })

/-- spec/42_sampler.md R170: nothing after boot clears running. -/
def Obligations.RunningIsNeverCleared : Prop :=
  ∀ s t : State, step s = .next t → s.smp.running = true → t.smp.running = true

/-! ### Pseudo-instructions and the reference program -/

/-- spec/43_consumer.md R198: WAITBUSY is held while busy = 0, and completes when busy = 1, with the response of the
RDSTAT that reads BUSY = 1 (log entry 8). -/
def Obligations.WaitbusyHoldsUntilBusy : Prop :=
  ∀ (s : State) (rest : List ConsumerInput), s.fault = none → s.sched.head? = some .consumer →
    s.consIn = .waitbusy :: rest →
    (s.busy = false → s.held = true ∧ step s = .next { s with sched := s.sched.tail }) ∧
    (s.busy = true → s.held = false ∧ ∃ v : Half, v.getLsbD 0 = true ∧
      step s = .next { s with
        sched := s.sched.tail
        consIn := rest
        posC := s.posC + 1
        responses := s.responses ++ [v] })

/-- spec/43_consumer.md R199: while busy, READC #j with j < N takes two consumer steps, responds with proc's offset and
then with the unit of slot (offset + j) mod N, and changes nothing else. The two accepted commands are log entry 9. -/
def Obligations.ReadcReadsJthOldest : Prop :=
  ∀ (s : State) (j : Nat) (rest : List ConsumerInput) (sc : List Agent), s.fault = none → s.Inv → s.busy = true →
    s.sched = .consumer :: .consumer :: sc → s.consIn = .readc j :: rest → j < s.cfg.bufSize →
    ∃ v, s.proc.mem.read ((s.proc.i.toNat + j) % s.cfg.bufSize) = some v ∧
      steps 2 s = .next { s with
        sched := sc
        consIn := rest
        posC := s.posC + 2
        responses := s.responses ++ [s.proc.i, v] }

/-- The model's choice (log entry 9): READC #j with j ≥ N, for which spec/43_consumer.md R199 states no slot, responds
with proc's offset as any READC does, and the READ of a free slot index is then port C's next command. On the next
turn of the consumer that READ does what READ does at that index: F4, F5 or the unit. It holds whatever the index is. -/
def Obligations.ReadcBeyondRangeReadsFreeSlot : Prop :=
  ∀ (s : State) (j : Nat) (rest : List ConsumerInput), s.fault = none → s.sched.head? = some .consumer →
    s.consIn = .readc j :: rest → s.cfg.bufSize ≤ j →
    let k := Config.readcIndex s.draws
    let w : CmdWord := BitVec.ofNat 32 (0x20000000 + k.toNat)
    let t : State := { s with
      sched := s.sched.tail
      consIn := .word w :: rest
      posC := s.posC + 1
      responses := s.responses ++ [s.proc.i]
      draws := s.draws + 1 }
    step s = .next t ∧
    (t.sched.head? = some .consumer →
      step t = .next (
        if s.cfg.bufSize ≤ k.toNat then { t with fault := some (.indexRange w k) }
        else match s.proc.mem.read k.toNat with
          | none => { t with fault := some (.unwrittenRead w s.sel.other k) }
          | some v => { t with
              sched := t.sched.tail
              consIn := rest
              posC := s.posC + 2
              responses := s.responses ++ [s.proc.i, v] }))

/-- spec/43_consumer.md R200, spec/30_encoding.md R80: a cycle of the reference consumer program is WAITBUSY and the
words of RDOFF, READ #0 to READ #(N-1), and RELEASE, all at port C. -/
def Obligations.ForegroundCycleWords : Prop :=
  ∀ c : Config, assemble c (foregroundCycle c) 0 =
    some ⟨[], .waitbusy :: .word 0x30000000#32 ::
      ((List.range c.bufSize).map (fun k => .word (BitVec.ofNat 32 (0x20000000 + k))) ++ [.word 0x60000000#32])⟩
end

