-- ==== Sys2Proof/Laws/Memory.lean ====
section
/-!
SUPPORT. The storage: a read after a write, and the canonical form, which every operation on storage keeps.
-/

namespace Sys2Proof.Machine

@[simp] theorem Memory.read_nil (k : Nat) : Memory.read [] k = none := rfl

@[simp] theorem Memory.read_write_same (m : Memory) (k : Nat) (v : Half) : (m.write k v).read k = some v := by
  induction m with
  | nil => simp [Memory.write, Memory.read]
  | cons cell rest ih =>
    obtain ⟨a, b⟩ := cell
    simp only [Memory.write]
    split
    · simp [Memory.read]
    · split
      · simp [Memory.read]
      · rename_i hne
        simp [Memory.read, Ne.symm hne, ih]

theorem Memory.read_write_ne (m : Memory) {k j : Nat} (v : Half) (h : j ≠ k) : (m.write k v).read j = m.read j := by
  induction m with
  | nil => simp [Memory.write, Memory.read, h.symm]
  | cons cell rest ih =>
    obtain ⟨a, b⟩ := cell
    simp only [Memory.write]
    split
    · simp [Memory.read, h.symm]
    · split
      · rename_i heq
        subst heq
        simp [Memory.read, h.symm]
      · simp only [Memory.read, ih]

/-- The canonical form of a longer storage: the first slot lies below the next one. -/
theorem Memory.wf_cons (a : Nat) (v : Half) (m : Memory) :
    Memory.wf ((a, v) :: m) = true ↔ (∀ cell ∈ m.head?, a < cell.1) ∧ m.wf = true := by
  cases m with
  | nil => simp [Memory.wf]
  | cons cell rest => obtain ⟨b, w⟩ := cell; simp [Memory.wf]

/-- What stands first after a write: the first slot, or the one written. -/
theorem Memory.head_write (m : Memory) (k : Nat) (v : Half) {cell : Nat × Half} (h : cell ∈ (m.write k v).head?) :
    cell.1 = k ∨ ∃ c ∈ m.head?, cell.1 = c.1 := by
  cases m with
  | nil => simp [Memory.write] at h; simp [← h]
  | cons c rest =>
    obtain ⟨a, b⟩ := c
    simp only [Memory.write] at h
    split at h
    · simp only [List.head?_cons, Option.mem_def, Option.some.injEq] at h
      simp [← h]
    · split at h <;> simp only [List.head?_cons, Option.mem_def, Option.some.injEq] at h <;> simp [← h]

theorem Memory.write_wf (m : Memory) (k : Nat) (v : Half) (h : m.wf = true) : (m.write k v).wf = true := by
  induction m with
  | nil => simp [Memory.write, Memory.wf]
  | cons cell rest ih =>
    obtain ⟨a, b⟩ := cell
    obtain ⟨hhead, hrest⟩ := (Memory.wf_cons a b rest).1 h
    simp only [Memory.write]
    split
    · exact (Memory.wf_cons _ _ _).2 ⟨by simpa, h⟩
    · split
      · rename_i heq
        subst heq
        exact (Memory.wf_cons _ _ _).2 ⟨hhead, hrest⟩
      · refine (Memory.wf_cons _ _ _).2 ⟨fun c hc => ?_, ih hrest⟩
        rcases Memory.head_write rest k v hc with hk | ⟨c', hc', heq⟩
        · omega
        · exact heq ▸ hhead c' hc'

/-- A storage property of cells holds after a write if it held before and holds of the written cell. -/
theorem Memory.all_write (p : Nat × Half → Bool) (m : Memory) (k : Nat) (v : Half) (h : m.all p = true)
    (hv : p (k, v) = true) : (m.write k v).all p = true := by
  induction m with
  | nil => simp [Memory.write, hv]
  | cons cell rest ih =>
    obtain ⟨a, b⟩ := cell
    simp only [List.all_cons, Bool.and_eq_true] at h
    simp only [Memory.write]
    split
    · simp [hv, h.1, h.2]
    · split
      · simp [hv, h.2]
      · simp [h.1, ih h.2]

/-- A unit that is read is a listed cell. -/
theorem Memory.mem_of_read {m : Memory} {k : Nat} {v : Half} (h : m.read k = some v) : (k, v) ∈ m := by
  induction m with
  | nil => simp at h
  | cons cell rest ih =>
    obtain ⟨a, b⟩ := cell
    simp only [Memory.read] at h
    split at h
    · rename_i heq
      simp [← heq, Option.some.inj h]
    · exact List.mem_cons_of_mem _ (ih h)

end Sys2Proof.Machine
end

