-- ==== Sys2Proof/Laws/State.lean ====
section
/-!
SUPPORT. What each update of the state does to each field: one lemma per field per update, so that no proof unfolds a
record update.
-/

namespace Sys2Proof.Machine

/-! ### The rings by identity -/

@[simp] theorem RingId.other_other (r : RingId) : r.other.other = r := by cases r <;> rfl
@[simp] theorem RingId.other_ne (r : RingId) : r.other ≠ r := by cases r <;> decide
@[simp] theorem RingId.ne_other (r : RingId) : r ≠ r.other := by cases r <;> decide

theorem RingId.eq_or_eq_other (a b : RingId) : a = b ∨ a = b.other := by cases a <;> cases b <;> decide

@[simp] theorem ring_ping (s : State) : s.ring .ping = s.ping := rfl
@[simp] theorem ring_pong (s : State) : s.ring .pong = s.pong := rfl

@[simp] theorem setRing_ring_same (s : State) (r : RingId) (x : Ring) : (s.setRing r x).ring r = x := by
  cases r <;> rfl

@[simp] theorem setRing_ring_other (s : State) (r : RingId) (x : Ring) :
    (s.setRing r x).ring r.other = s.ring r.other := by
  cases r <;> rfl

/-- A ring set to what it is already. -/
theorem setRing_self (s : State) (r : RingId) : s.setRing r (s.ring r) = s := by cases r <;> rfl

/-- Two states are equal if their rings and all other fields are. -/
theorem State.ext_ring {s t : State} (h : ∀ r, s.ring r = t.ring r) (hrest : { s with ping := t.ping, pong := t.pong } = t) :
    s = t := by
  rw [← hrest, ← ring_ping t, ← ring_pong t, ← h, ← h]; rfl

@[simp] theorem setRing_cfg (s : State) (r : RingId) (x : Ring) : (s.setRing r x).cfg = s.cfg := by cases r <;> rfl
@[simp] theorem setRing_sel (s : State) (r : RingId) (x : Ring) : (s.setRing r x).sel = s.sel := by cases r <;> rfl
@[simp] theorem setRing_busy (s : State) (r : RingId) (x : Ring) : (s.setRing r x).busy = s.busy := by cases r <;> rfl
@[simp] theorem setRing_smp (s : State) (r : RingId) (x : Ring) : (s.setRing r x).smp = s.smp := by cases r <;> rfl
@[simp] theorem setRing_fault (s : State) (r : RingId) (x : Ring) : (s.setRing r x).fault = s.fault := by cases r <;> rfl
@[simp] theorem setRing_posP (s : State) (r : RingId) (x : Ring) : (s.setRing r x).posP = s.posP := by cases r <;> rfl
@[simp] theorem setRing_posC (s : State) (r : RingId) (x : Ring) : (s.setRing r x).posC = s.posC := by cases r <;> rfl
@[simp] theorem setRing_prodIn (s : State) (r : RingId) (x : Ring) : (s.setRing r x).prodIn = s.prodIn := by cases r <;> rfl
@[simp] theorem setRing_consIn (s : State) (r : RingId) (x : Ring) : (s.setRing r x).consIn = s.consIn := by cases r <;> rfl
@[simp] theorem setRing_hostIn (s : State) (r : RingId) (x : Ring) : (s.setRing r x).hostIn = s.hostIn := by cases r <;> rfl
@[simp] theorem setRing_sched (s : State) (r : RingId) (x : Ring) : (s.setRing r x).sched = s.sched := by cases r <;> rfl
@[simp] theorem setRing_responses (s : State) (r : RingId) (x : Ring) : (s.setRing r x).responses = s.responses := by cases r <;> rfl
@[simp] theorem setRing_draws (s : State) (r : RingId) (x : Ring) : (s.setRing r x).draws = s.draws := by cases r <;> rfl

/-! ### A response -/

@[simp] theorem respond_cfg (s : State) (v : Half) : (s.respond v).cfg = s.cfg := rfl
@[simp] theorem respond_ping (s : State) (v : Half) : (s.respond v).ping = s.ping := rfl
@[simp] theorem respond_pong (s : State) (v : Half) : (s.respond v).pong = s.pong := rfl
@[simp] theorem respond_sel (s : State) (v : Half) : (s.respond v).sel = s.sel := rfl
@[simp] theorem respond_busy (s : State) (v : Half) : (s.respond v).busy = s.busy := rfl
@[simp] theorem respond_smp (s : State) (v : Half) : (s.respond v).smp = s.smp := rfl
@[simp] theorem respond_fault (s : State) (v : Half) : (s.respond v).fault = s.fault := rfl
@[simp] theorem respond_posP (s : State) (v : Half) : (s.respond v).posP = s.posP := rfl
@[simp] theorem respond_posC (s : State) (v : Half) : (s.respond v).posC = s.posC := rfl
@[simp] theorem respond_prodIn (s : State) (v : Half) : (s.respond v).prodIn = s.prodIn := rfl
@[simp] theorem respond_consIn (s : State) (v : Half) : (s.respond v).consIn = s.consIn := rfl
@[simp] theorem respond_hostIn (s : State) (v : Half) : (s.respond v).hostIn = s.hostIn := rfl
@[simp] theorem respond_sched (s : State) (v : Half) : (s.respond v).sched = s.sched := rfl
@[simp] theorem respond_responses (s : State) (v : Half) : (s.respond v).responses = s.responses ++ [v] := rfl
@[simp] theorem respond_draws (s : State) (v : Half) : (s.respond v).draws = s.draws := rfl
@[simp] theorem respond_ring (s : State) (v : Half) (r : RingId) : (s.respond v).ring r = s.ring r := by cases r <;> rfl

/-! ### A fault -/

@[simp] theorem raise_cfg (s : State) (f : Fault) : (s.raise f).cfg = s.cfg := rfl
@[simp] theorem raise_ping (s : State) (f : Fault) : (s.raise f).ping = s.ping := rfl
@[simp] theorem raise_pong (s : State) (f : Fault) : (s.raise f).pong = s.pong := rfl
@[simp] theorem raise_sel (s : State) (f : Fault) : (s.raise f).sel = s.sel := rfl
@[simp] theorem raise_busy (s : State) (f : Fault) : (s.raise f).busy = s.busy := rfl
@[simp] theorem raise_smp (s : State) (f : Fault) : (s.raise f).smp = s.smp := rfl
@[simp] theorem raise_fault (s : State) (f : Fault) : (s.raise f).fault = s.fault.or (some f) := rfl
@[simp] theorem raise_posP (s : State) (f : Fault) : (s.raise f).posP = s.posP := rfl
@[simp] theorem raise_posC (s : State) (f : Fault) : (s.raise f).posC = s.posC := rfl
@[simp] theorem raise_prodIn (s : State) (f : Fault) : (s.raise f).prodIn = s.prodIn := rfl
@[simp] theorem raise_consIn (s : State) (f : Fault) : (s.raise f).consIn = s.consIn := rfl
@[simp] theorem raise_hostIn (s : State) (f : Fault) : (s.raise f).hostIn = s.hostIn := rfl
@[simp] theorem raise_sched (s : State) (f : Fault) : (s.raise f).sched = s.sched := rfl
@[simp] theorem raise_responses (s : State) (f : Fault) : (s.raise f).responses = s.responses := rfl
@[simp] theorem raise_draws (s : State) (f : Fault) : (s.raise f).draws = s.draws := rfl
@[simp] theorem raise_ring (s : State) (f : Fault) (r : RingId) : (s.raise f).ring r = s.ring r := by cases r <;> rfl

/-! ### A promotion -/

@[simp] theorem promote_cfg (s : State) : (s.promote).cfg = s.cfg := rfl
@[simp] theorem promote_ping (s : State) : (s.promote).ping = s.ping := rfl
@[simp] theorem promote_pong (s : State) : (s.promote).pong = s.pong := rfl
@[simp] theorem promote_sel (s : State) : (s.promote).sel = s.sel.other := rfl
@[simp] theorem promote_busy (s : State) : (s.promote).busy = true := rfl
@[simp] theorem promote_smp (s : State) : (s.promote).smp = s.smp := rfl
@[simp] theorem promote_fault (s : State) : (s.promote).fault = s.fault := rfl
@[simp] theorem promote_posP (s : State) : (s.promote).posP = s.posP := rfl
@[simp] theorem promote_posC (s : State) : (s.promote).posC = s.posC := rfl
@[simp] theorem promote_prodIn (s : State) : (s.promote).prodIn = s.prodIn := rfl
@[simp] theorem promote_consIn (s : State) : (s.promote).consIn = s.consIn := rfl
@[simp] theorem promote_hostIn (s : State) : (s.promote).hostIn = s.hostIn := rfl
@[simp] theorem promote_sched (s : State) : (s.promote).sched = s.sched := rfl
@[simp] theorem promote_responses (s : State) : (s.promote).responses = s.responses := rfl
@[simp] theorem promote_draws (s : State) : (s.promote).draws = s.draws := rfl
@[simp] theorem promote_ring (s : State) (r : RingId) : (s.promote).ring r = s.ring r := by cases r <;> rfl

/-! ### The end of a turn -/

@[simp] theorem endTurn_cfg (s : State) : (s.endTurn).cfg = s.cfg := rfl
@[simp] theorem endTurn_ping (s : State) : (s.endTurn).ping = s.ping := rfl
@[simp] theorem endTurn_pong (s : State) : (s.endTurn).pong = s.pong := rfl
@[simp] theorem endTurn_sel (s : State) : (s.endTurn).sel = s.sel := rfl
@[simp] theorem endTurn_busy (s : State) : (s.endTurn).busy = s.busy := rfl
@[simp] theorem endTurn_smp (s : State) : (s.endTurn).smp = s.smp := rfl
@[simp] theorem endTurn_fault (s : State) : (s.endTurn).fault = s.fault := rfl
@[simp] theorem endTurn_posP (s : State) : (s.endTurn).posP = s.posP := rfl
@[simp] theorem endTurn_posC (s : State) : (s.endTurn).posC = s.posC := rfl
@[simp] theorem endTurn_prodIn (s : State) : (s.endTurn).prodIn = s.prodIn := rfl
@[simp] theorem endTurn_consIn (s : State) : (s.endTurn).consIn = s.consIn := rfl
@[simp] theorem endTurn_hostIn (s : State) : (s.endTurn).hostIn = s.hostIn := rfl
@[simp] theorem endTurn_sched (s : State) : (s.endTurn).sched = s.sched.tail := rfl
@[simp] theorem endTurn_responses (s : State) : (s.endTurn).responses = s.responses := rfl
@[simp] theorem endTurn_draws (s : State) : (s.endTurn).draws = s.draws := rfl
@[simp] theorem endTurn_ring (s : State) (r : RingId) : (s.endTurn).ring r = s.ring r := by cases r <;> rfl

/-! ### Acceptance at port P -/

@[simp] theorem acceptP_cfg (s : State) : (s.accept .P).cfg = s.cfg := rfl
@[simp] theorem acceptP_ping (s : State) : (s.accept .P).ping = s.ping := rfl
@[simp] theorem acceptP_pong (s : State) : (s.accept .P).pong = s.pong := rfl
@[simp] theorem acceptP_sel (s : State) : (s.accept .P).sel = s.sel := rfl
@[simp] theorem acceptP_busy (s : State) : (s.accept .P).busy = s.busy := rfl
@[simp] theorem acceptP_smp (s : State) : (s.accept .P).smp = s.smp := rfl
@[simp] theorem acceptP_fault (s : State) : (s.accept .P).fault = s.fault := rfl
@[simp] theorem acceptP_posP (s : State) : (s.accept .P).posP = s.posP + 1 := rfl
@[simp] theorem acceptP_posC (s : State) : (s.accept .P).posC = s.posC := rfl
@[simp] theorem acceptP_prodIn (s : State) : (s.accept .P).prodIn = s.prodIn.tail := rfl
@[simp] theorem acceptP_consIn (s : State) : (s.accept .P).consIn = s.consIn := rfl
@[simp] theorem acceptP_hostIn (s : State) : (s.accept .P).hostIn = s.hostIn := rfl
@[simp] theorem acceptP_sched (s : State) : (s.accept .P).sched = s.sched.tail := rfl
@[simp] theorem acceptP_responses (s : State) : (s.accept .P).responses = s.responses := rfl
@[simp] theorem acceptP_draws (s : State) : (s.accept .P).draws = s.draws := rfl
@[simp] theorem acceptP_ring (s : State) (r : RingId) : (s.accept .P).ring r = s.ring r := by cases r <;> rfl

/-! ### Acceptance at port C -/

@[simp] theorem acceptC_cfg (s : State) : (s.accept .C).cfg = s.cfg := rfl
@[simp] theorem acceptC_ping (s : State) : (s.accept .C).ping = s.ping := rfl
@[simp] theorem acceptC_pong (s : State) : (s.accept .C).pong = s.pong := rfl
@[simp] theorem acceptC_sel (s : State) : (s.accept .C).sel = s.sel := rfl
@[simp] theorem acceptC_busy (s : State) : (s.accept .C).busy = s.busy := rfl
@[simp] theorem acceptC_smp (s : State) : (s.accept .C).smp = s.smp := rfl
@[simp] theorem acceptC_fault (s : State) : (s.accept .C).fault = s.fault := rfl
@[simp] theorem acceptC_posP (s : State) : (s.accept .C).posP = s.posP := rfl
@[simp] theorem acceptC_posC (s : State) : (s.accept .C).posC = s.posC + 1 := rfl
@[simp] theorem acceptC_prodIn (s : State) : (s.accept .C).prodIn = s.prodIn := rfl
@[simp] theorem acceptC_consIn (s : State) : (s.accept .C).consIn = s.consIn.tail := rfl
@[simp] theorem acceptC_hostIn (s : State) : (s.accept .C).hostIn = s.hostIn := rfl
@[simp] theorem acceptC_sched (s : State) : (s.accept .C).sched = s.sched.tail := rfl
@[simp] theorem acceptC_responses (s : State) : (s.accept .C).responses = s.responses := rfl
@[simp] theorem acceptC_draws (s : State) : (s.accept .C).draws = s.draws := rfl
@[simp] theorem acceptC_ring (s : State) (r : RingId) : (s.accept .C).ring r = s.ring r := by cases r <;> rfl

/-! ### The released frame -/

@[simp] theorem releaseFrame_cfg (s : State) : (releaseFrame s).cfg = s.cfg := by cases s with | mk _ _ _ sel => cases sel <;> rfl
@[simp] theorem releaseFrame_sel (s : State) : (releaseFrame s).sel = s.sel := by cases s with | mk _ _ _ sel => cases sel <;> rfl
@[simp] theorem releaseFrame_busy (s : State) : (releaseFrame s).busy = false := by cases s with | mk _ _ _ sel => cases sel <;> rfl
@[simp] theorem releaseFrame_smp (s : State) : (releaseFrame s).smp = s.smp := by cases s with | mk _ _ _ sel => cases sel <;> rfl
@[simp] theorem releaseFrame_fault (s : State) : (releaseFrame s).fault = s.fault := by cases s with | mk _ _ _ sel => cases sel <;> rfl
@[simp] theorem releaseFrame_posP (s : State) : (releaseFrame s).posP = s.posP := by cases s with | mk _ _ _ sel => cases sel <;> rfl
@[simp] theorem releaseFrame_posC (s : State) : (releaseFrame s).posC = s.posC := by cases s with | mk _ _ _ sel => cases sel <;> rfl
@[simp] theorem releaseFrame_prodIn (s : State) : (releaseFrame s).prodIn = s.prodIn := by cases s with | mk _ _ _ sel => cases sel <;> rfl
@[simp] theorem releaseFrame_consIn (s : State) : (releaseFrame s).consIn = s.consIn := by cases s with | mk _ _ _ sel => cases sel <;> rfl
@[simp] theorem releaseFrame_hostIn (s : State) : (releaseFrame s).hostIn = s.hostIn := by cases s with | mk _ _ _ sel => cases sel <;> rfl
@[simp] theorem releaseFrame_sched (s : State) : (releaseFrame s).sched = s.sched := by cases s with | mk _ _ _ sel => cases sel <;> rfl
@[simp] theorem releaseFrame_responses (s : State) : (releaseFrame s).responses = s.responses := by cases s with | mk _ _ _ sel => cases sel <;> rfl
@[simp] theorem releaseFrame_draws (s : State) : (releaseFrame s).draws = s.draws := by cases s with | mk _ _ _ sel => cases sel <;> rfl

@[simp] theorem releaseFrame_ring_proc (s : State) : (releaseFrame s).ring s.sel.other = ringClear (s.ring s.sel.other) := by
  cases s with | mk _ _ _ sel => cases sel <;> rfl

@[simp] theorem releaseFrame_ring_capt (s : State) : (releaseFrame s).ring s.sel = s.ring s.sel := by
  cases s with | mk _ _ _ sel => cases sel <;> rfl

end Sys2Proof.Machine
end

