-- ==== Sys2Proof/Laws/Ring.lean ====
section
/-!
SUPPORT. The ring operations: what each does to index, count and storage (spec/40_ring.md), and that each keeps a ring
in good order.
-/

namespace Sys2Proof.Machine

/-! ### RingWrite -/

@[simp] theorem ringWrite_read_index (c : Config) (r : Ring) (x : Half) :
    (ringWrite c r x).mem.read r.i.toNat = some x := by
  simp [ringWrite]

theorem ringWrite_read_ne (c : Config) (r : Ring) (x : Half) {k : Nat} (h : k ≠ r.i.toNat) :
    (ringWrite c r x).mem.read k = r.mem.read k :=
  Memory.read_write_ne r.mem x h

/-- The index advances by 1 modulo N (spec/40_ring.md R106). -/
theorem ringWrite_i (c : Config) (r : Ring) (x : Half) (h : r.i.toNat < c.bufSize) :
    (ringWrite c r x).i.toNat = (r.i.toNat + 1) % c.bufSize := by
  have hN := c.bufSize_le
  simp only [ringWrite]
  split
  · have : r.i.toNat + 1 = c.bufSize := by omega
    simp [this]
  · rw [Nat.mod_eq_of_lt (by omega), BitVec.toNat_add]
    simp; omega

/-- The count rises by 1 and saturates at N (spec/40_ring.md R101). -/
theorem ringWrite_size (c : Config) (r : Ring) (x : Half) (h : r.size.toNat ≤ c.bufSize) :
    (ringWrite c r x).size.toNat = min (r.size.toNat + 1) c.bufSize := by
  have hN := c.bufSize_le
  simp only [ringWrite]
  split
  · rw [BitVec.toNat_add]
    simp; omega
  · omega

/-! ### Rings in good order -/

/-- What it says that a ring is in good order. -/
theorem Ring.ok_iff (c : Config) (r : Ring) :
    r.ok c = true ↔ r.i.toNat < c.bufSize ∧ r.size.toNat ≤ c.bufSize ∧ r.mem.wf = true ∧ unitsFit c r.mem = true ∧
      ∀ j < r.size.toNat, r.wr ((r.i.toNat + (c.bufSize - (j + 1))) % c.bufSize) = true := by
  simp [Ring.ok, recentWritten, and_assoc]

@[simp] theorem Ring.fresh_ok (c : Config) : Ring.fresh.ok c = true := by
  have := c.bufSize_pos
  simp [Ring.ok_iff, Ring.fresh, Memory.wf, unitsFit]
  omega

theorem ringClear_ok (c : Config) (r : Ring) (h : r.ok c = true) : (ringClear r).ok c = true := by
  rw [Ring.ok_iff] at h ⊢
  simp [ringClear, h.1, h.2.2.1, h.2.2.2.1]

/-- A written slot stays written. -/
theorem ringWrite_wr (c : Config) (r : Ring) (x : Half) {k : Nat} (h : r.wr k = true ∨ k = r.i.toNat) :
    (ringWrite c r x).wr k = true := by
  by_cases hk : k = r.i.toNat
  · simp [Ring.wr, hk]
  · simpa [Ring.wr, ringWrite_read_ne c r x hk] using h.resolve_right hk

/-- Stepping behind the index by one slot fewer after the index has moved on by one. -/
theorem slot_behind (n i j : Nat) (hj : j + 1 < n) :
    ((i + 1) % n + (n - (j + 1 + 1))) % n = (i + (n - (j + 1))) % n := by
  rw [Nat.mod_add_mod]
  congr 1
  omega

theorem slot_just_behind (n i : Nat) (hi : i < n) : ((i + 1) % n + (n - 1)) % n = i := by
  rw [Nat.mod_add_mod, show i + 1 + (n - 1) = i + n by omega, Nat.add_mod_right, Nat.mod_eq_of_lt hi]

/-- RingWrite of a fitting unit keeps a ring in good order. -/
theorem ringWrite_ok (c : Config) (r : Ring) (x : Half) (h : r.ok c = true) (hx : x.toNat < 2 ^ unitWidth c) :
    (ringWrite c r x).ok c = true := by
  have hpos := c.bufSize_pos
  obtain ⟨hi, hs, hwf, hfit, hwr⟩ := (Ring.ok_iff c r).1 h
  have hi' := ringWrite_i c r x hi
  have hs' := ringWrite_size c r x hs
  refine (Ring.ok_iff c _).2 ⟨?_, ?_, Memory.write_wf _ _ _ hwf, Memory.all_write _ _ _ _ hfit ?_, ?_⟩
  · rw [hi']; exact Nat.mod_lt _ hpos
  · rw [hs']; omega
  · simp [hi, hx]
  · intro j hj
    rw [hs'] at hj
    rw [hi']
    apply ringWrite_wr
    cases j with
    | zero => exact .inr (slot_just_behind _ _ hi)
    | succ j =>
      rw [slot_behind _ _ _ (by omega)]
      exact .inl (hwr j (by omega))

/-- The sample of PUSH fits the storage unit (spec/30_encoding.md R74). -/
theorem pushOperand_fits (c : Config) (x : Half) : (pushOperand c x).toNat < 2 ^ unitWidth c := by
  have : unitWidth c = 8 ∨ unitWidth c = 16 := by unfold unitWidth; split <;> simp
  rcases this with h | h
  · simp only [pushOperand, h, if_true]
    simp only [BitVec.toNat_setWidth, BitVec.extractLsb'_toNat]
    omega
  · simp only [pushOperand, h]
    simpa using x.isLt

/-- A sample that fits is stored unchanged (spec/40_ring.md R107). -/
theorem pushOperand_of_fits (c : Config) (x : Half) (h : x.toNat < 2 ^ unitWidth c) : pushOperand c x = x := by
  unfold pushOperand
  split
  · rename_i h8
    rw [h8] at h
    apply BitVec.eq_of_toNat_eq
    simp only [BitVec.toNat_setWidth, BitVec.extractLsb'_toNat]
    omega
  · rfl

/-- U is 8 or 16. -/
theorem unitWidth_cases (c : Config) : unitWidth c = 8 ∨ unitWidth c = 16 := by
  unfold unitWidth; split <;> simp

/-! ### RingIndex -/

theorem ringIndex_ok {c : Config} {r : Ring} {k v : Half} (hk : k.toNat < c.bufSize)
    (hv : r.mem.read k.toNat = some v) : ringIndex c r k = .ok v := by
  simp [ringIndex, hv, Nat.not_le.2 hk]

theorem ringIndex_range {c : Config} (r : Ring) {k : Half} (hk : c.bufSize ≤ k.toNat) :
    ringIndex c r k = .error .range := by
  simp [ringIndex, hk]

theorem ringIndex_unwritten {c : Config} {r : Ring} {k : Half} (hk : k.toNat < c.bufSize)
    (hv : r.mem.read k.toNat = none) : ringIndex c r k = .error .unwritten := by
  simp [ringIndex, hv, Nat.not_le.2 hk]

end Sys2Proof.Machine
end

