-- ==== Sys2Proof/Laws/Exec.lean ====
section
/-!
SUPPORT. What each command can do: one equation per shared operation and per command, and one inversion lemma for exec.
-/

namespace Sys2Proof.Machine

/-! ### The sample step -/

theorem pushSample_def (x : Half) (s : State) :
    pushSample x s =
      if !s.busy && ringFull s.cfg (ringWrite s.cfg s.capt x) then
        (s.setRing s.sel (ringWrite s.cfg s.capt x)).promote
      else s.setRing s.sel (ringWrite s.cfg s.capt x) := by
  simp [pushSample, State.promotes, State.captFull, State.capt]

@[simp] theorem pushSample_cfg (x : Half) (s : State) : (pushSample x s).cfg = s.cfg := by
  rw [pushSample_def]; split <;> simp
@[simp] theorem pushSample_smp (x : Half) (s : State) : (pushSample x s).smp = s.smp := by
  rw [pushSample_def]; split <;> simp
@[simp] theorem pushSample_fault (x : Half) (s : State) : (pushSample x s).fault = s.fault := by
  rw [pushSample_def]; split <;> simp
@[simp] theorem pushSample_posP (x : Half) (s : State) : (pushSample x s).posP = s.posP := by
  rw [pushSample_def]; split <;> simp
@[simp] theorem pushSample_posC (x : Half) (s : State) : (pushSample x s).posC = s.posC := by
  rw [pushSample_def]; split <;> simp
@[simp] theorem pushSample_prodIn (x : Half) (s : State) : (pushSample x s).prodIn = s.prodIn := by
  rw [pushSample_def]; split <;> simp
@[simp] theorem pushSample_consIn (x : Half) (s : State) : (pushSample x s).consIn = s.consIn := by
  rw [pushSample_def]; split <;> simp
@[simp] theorem pushSample_hostIn (x : Half) (s : State) : (pushSample x s).hostIn = s.hostIn := by
  rw [pushSample_def]; split <;> simp
@[simp] theorem pushSample_sched (x : Half) (s : State) : (pushSample x s).sched = s.sched := by
  rw [pushSample_def]; split <;> simp
@[simp] theorem pushSample_responses (x : Half) (s : State) : (pushSample x s).responses = s.responses := by
  rw [pushSample_def]; split <;> simp
@[simp] theorem pushSample_draws (x : Half) (s : State) : (pushSample x s).draws = s.draws := by
  rw [pushSample_def]; split <;> simp

/-- The ring written (spec/41_producer.md R130). -/
@[simp] theorem pushSample_ring_capt (x : Half) (s : State) :
    (pushSample x s).ring s.sel = ringWrite s.cfg (s.ring s.sel) x := by
  rw [pushSample_def]; split <;> simp [State.capt]

/-- PUSH never writes proc (spec/41_producer.md R130). -/
@[simp] theorem pushSample_ring_proc (x : Half) (s : State) :
    (pushSample x s).ring s.sel.other = s.ring s.sel.other := by
  rw [pushSample_def]; split <;> simp

theorem pushSample_busy (x : Half) (s : State) :
    (pushSample x s).busy = (s.busy || ringFull s.cfg (ringWrite s.cfg s.capt x)) := by
  rw [pushSample_def]
  cases hb : s.busy <;> cases ringFull s.cfg (ringWrite s.cfg s.capt x) <;> simp [hb]

theorem pushSample_sel (x : Half) (s : State) :
    (pushSample x s).sel = if !s.busy && ringFull s.cfg (ringWrite s.cfg s.capt x) then s.sel.other else s.sel := by
  rw [pushSample_def]; split <;> simp

/-! ### Commands -/

theorem unlessFaulted_live {s : State} (h : s.fault = none) (run : Result) : unlessFaulted s run = run := by
  simp [unlessFaulted, h]

theorem unlessFaulted_faulted {s : State} {f : Fault} (h : s.fault = some f) (run : Result) :
    unlessFaulted s run = .fault f := by
  simp [unlessFaulted, h]

theorem unlessFaulted_next {s t : State} {run : Result} (h : unlessFaulted s run = .next t) :
    s.fault = none ∧ run = .next t := by
  cases hf : s.fault with
  | none => exact ⟨rfl, by rwa [unlessFaulted_live hf] at h⟩
  | some f => rw [unlessFaulted_faulted hf] at h; cases h

/-- The state a command leaves when no fault is recorded before it. -/
def instrEffect (s : State) : Instr → State
  | .push x => pushSample (pushOperand s.cfg x) s
  | .read k => readResult k s (ringIndex s.cfg s.proc k)
  | .rdoff => s.respond s.proc.i
  | .rdstat => s.respond s.stat
  | .rdsize role => s.respond (s.ringOfRole role).size
  | .release => releaseFrame s

/-- exec, for every command at once. -/
theorem exec_eq (i : Instr) (s : State) : exec i s = unlessFaulted s (.next (instrEffect s i)) := by
  cases i <;> rfl

theorem exec_live (i : Instr) {s : State} (h : s.fault = none) : exec i s = .next (instrEffect s i) := by
  rw [exec_eq, unlessFaulted_live h]

theorem exec_faulted (i : Instr) {s : State} {f : Fault} (h : s.fault = some f) : exec i s = .fault f := by
  rw [exec_eq, unlessFaulted_faulted h]

/-- The inversion lemma of exec: it answers a next state exactly where no fault is recorded, and which one. -/
theorem exec_next_iff (i : Instr) (s t : State) : exec i s = .next t ↔ s.fault = none ∧ t = instrEffect s i := by
  constructor
  · intro h
    rw [exec_eq] at h
    obtain ⟨hf, he⟩ := unlessFaulted_next h
    cases he
    exact ⟨hf, rfl⟩
  · rintro ⟨hf, rfl⟩
    exact exec_live i hf

/-- What READ leaves: a response, or a fault mark (spec/43_consumer.md R190). -/
theorem readResult_cases (k : Half) (s : State) (a : Except IndexError Half) :
    (∃ v, readResult k s a = s.respond v) ∨ ∃ f, readResult k s a = s.raise f := by
  rcases a with e | v
  · cases e <;> exact .inr ⟨_, rfl⟩
  · exact .inl ⟨v, rfl⟩

end Sys2Proof.Machine
end

