-- ==== Sys2Proof/Laws/PerInstr.lean ====
section
/-!
SUPPORT. What holds of every command as syntax, one lemma per constructor.
-/

namespace Sys2Proof.Laws.Format

/-- The word of a command has format C32 (spec/30_encoding.md R71): its fields are the opcode, zero, and the operand;
and presented where its opcode belongs it stands at the command's own port (R72). -/
def Statement (i : Instr) : Prop :=
  opField (encode i) = opcode i ∧ rsvField (encode i) = 0 ∧ immField (encode i) = immOf i ∧
    portOfWord (encode i) = portOf i

/-- The value of a word built from its fields. -/
theorem word_toNat (op : BitVec 4) (imm : Half) : (op ++ 0#12 ++ imm).toNat = op.toNat * 2 ^ 28 + imm.toNat := by
  rw [BitVec.toNat_append, BitVec.toNat_append, ← Nat.shiftLeft_add_eq_or_of_lt imm.isLt,
    ← Nat.shiftLeft_add_eq_or_of_lt (0#12).isLt, Nat.shiftLeft_eq, Nat.shiftLeft_eq, BitVec.toNat_zero]
  omega

/-- The three fields of a word built from them. -/
theorem fields (op : BitVec 4) (imm : Half) :
    opField (op ++ 0#12 ++ imm) = op ∧ rsvField (op ++ 0#12 ++ imm) = 0 ∧ immField (op ++ 0#12 ++ imm) = imm := by
  have hop := op.isLt
  have himm := imm.isLt
  refine ⟨?_, ?_, ?_⟩ <;> apply BitVec.eq_of_toNat_eq <;>
    simp only [opField, rsvField, immField, BitVec.extractLsb'_toNat, word_toNat, Nat.shiftRight_eq_div_pow,
      BitVec.ofNat_eq_ofNat, BitVec.toNat_ofNat, Nat.zero_mod] <;>
    omega

/-- The port of a word follows from its opcode. -/
theorem portOfWord_fields {op : BitVec 4} {o : Opcode} (imm : Half) (h : opcodeOf op = some o) :
    portOfWord (op ++ 0#12 ++ imm) = portOfOpcode o := by
  simp only [portOfWord, (fields op imm).1, h]

/-- The fields hold of every command; its port remains. -/
theorem of_port (i : Instr) (h : portOfWord (encode i) = portOf i) : Statement i :=
  ⟨(fields _ _).1, (fields _ _).2.1, (fields _ _).2.2, h⟩

theorem push (x : Half) : Statement (.push x) := of_port _ (portOfWord_fields (o := .push) _ rfl)
theorem read (k : Half) : Statement (.read k) := of_port _ (portOfWord_fields (o := .read) _ rfl)
theorem rdoff : Statement .rdoff := of_port _ (portOfWord_fields (o := .rdoff) _ rfl)
theorem rdstat : Statement .rdstat := of_port _ (portOfWord_fields (o := .rdstat) _ rfl)
theorem rdsize (role : Role) : Statement (.rdsize role) := of_port _ (portOfWord_fields (o := .rdsize) _ rfl)
theorem release : Statement .release := of_port _ (portOfWord_fields (o := .release) _ rfl)

end Sys2Proof.Laws.Format
end

