-- ==== Sys2Proof/Laws/Step.lean ====
section
/-!
SUPPORT. What a step can do: the turn of each agent, and the inversion lemma of step over the block's own state.
-/

namespace Sys2Proof.Machine

/-! ### Acceptance -/

theorem acceptUnlessFaulted_live {t : State} (p : Port) (h : t.fault = none) : t.acceptUnlessFaulted p = t.accept p := by
  simp [State.acceptUnlessFaulted, h]

theorem acceptUnlessFaulted_faulted {t : State} (p : Port) {f : Fault} (h : t.fault = some f) :
    t.acceptUnlessFaulted p = t := by
  simp [State.acceptUnlessFaulted, h]

theorem mapNext_next {f : State → State} {r : Result} {t : State} (h : mapNext f r = .next t) :
    ∃ u, r = .next u ∧ t = f u := by
  cases r <;> simp_all [mapNext]

/-! ### The block's own state, without the inputs, the outputs and the fault mark -/

/-- Two states agree in what is the block's: configuration, rings, roles, handoff flag, sampler. -/
structure State.SameBlock (s t : State) : Prop where
  cfg : s.cfg = t.cfg
  ping : s.ping = t.ping
  pong : s.pong = t.pong
  sel : s.sel = t.sel
  busy : s.busy = t.busy
  smp : s.smp = t.smp

theorem State.SameBlock.refl (s : State) : s.SameBlock s := ⟨rfl, rfl, rfl, rfl, rfl, rfl⟩

theorem State.SameBlock.trans {a b c : State} (h : a.SameBlock b) (g : b.SameBlock c) : a.SameBlock c :=
  ⟨h.cfg.trans g.cfg, h.ping.trans g.ping, h.pong.trans g.pong, h.sel.trans g.sel, h.busy.trans g.busy,
    h.smp.trans g.smp⟩

theorem State.SameBlock.ring {s t : State} (h : s.SameBlock t) (r : RingId) : s.ring r = t.ring r := by
  cases r
  · exact h.ping
  · exact h.pong

theorem endTurn_sameBlock (s : State) : s.endTurn.SameBlock s := ⟨rfl, rfl, rfl, rfl, rfl, rfl⟩

theorem respond_sameBlock (s : State) (v : Half) : (s.respond v).SameBlock s := ⟨rfl, rfl, rfl, rfl, rfl, rfl⟩

theorem raise_sameBlock (s : State) (f : Fault) : (s.raise f).SameBlock s := ⟨rfl, rfl, rfl, rfl, rfl, rfl⟩

theorem accept_sameBlock (s : State) (p : Port) : (s.accept p).SameBlock s := by
  cases p <;> exact ⟨rfl, rfl, rfl, rfl, rfl, rfl⟩

theorem acceptUnlessFaulted_sameBlock (s : State) (p : Port) : (s.acceptUnlessFaulted p).SameBlock s := by
  cases hf : s.fault with
  | none => rw [acceptUnlessFaulted_live p hf]; exact accept_sameBlock s p
  | some f => rw [acceptUnlessFaulted_faulted p hf]; exact .refl s

/-- A consumer command other than RELEASE changes nothing of the block. -/
theorem instrEffect_sameBlock (s : State) (i : Instr) (hp : ∀ x, i ≠ .push x) (hr : i ≠ .release) :
    (instrEffect s i).SameBlock s := by
  cases i with
  | push x => exact absurd rfl (hp x)
  | read k =>
    rcases readResult_cases k s (ringIndex s.cfg s.proc k) with ⟨v, h⟩ | ⟨f, h⟩
    · rw [instrEffect, h]; exact respond_sameBlock s v
    · rw [instrEffect, h]; exact raise_sameBlock s f
  | rdoff => exact respond_sameBlock s _
  | rdstat => exact respond_sameBlock s _
  | rdsize role => exact respond_sameBlock s _
  | release => exact absurd rfl hr

/-- The port a decoded command belongs to (spec/30_encoding.md R72). -/
theorem portOf_of_decode {c : Config} {p : Port} {w : CmdWord} {i : Instr} (h : decode c p w = .ok i) :
    portOf i = p := by
  unfold decode at h
  split at h
  · cases h
  · rename_i op _
    split at h
    · cases h
    · rename_i hp
      split at h
      · cases h
      · rw [← not_not.1 hp]
        cases op <;> simp only [decodeOperand] at h <;> first | (split at h <;> cases h <;> rfl) | (cases h; rfl)

/-! ### One step -/

/-- What a word presented at a port does to the block. -/
theorem presentWord_block {p : Port} {w : CmdWord} {s t : State} (h : presentWord p w s = .next t) :
    t.SameBlock s ∨ (p = .P ∧ ∃ x, x.toNat < 2 ^ unitWidth s.cfg ∧ t = pushSample x s) ∨
      (p = .C ∧ t = releaseFrame s) := by
  unfold presentWord at h
  split at h
  · cases h; exact .inl (raise_sameBlock s _)
  · rename_i i hd
    obtain ⟨-, rfl⟩ := (exec_next_iff i s t).1 h
    have hport := portOf_of_decode hd
    cases i with
    | push x => exact .inr (.inl ⟨hport.symm, _, pushOperand_fits s.cfg x, rfl⟩)
    | release => exact .inr (.inr ⟨hport.symm, rfl⟩)
    | _ => exact .inl (instrEffect_sameBlock s _ (by simp) (by simp))

/-- What a command at the head of a port's input does to the block. -/
theorem commandStep_block {p : Port} {w : CmdWord} {s t : State} (h : commandStep p w s = .next t) :
    t.SameBlock s ∨ (p = .P ∧ ∃ x, x.toNat < 2 ^ unitWidth s.cfg ∧ t.SameBlock (pushSample x s)) ∨
      (p = .C ∧ t.SameBlock (releaseFrame s)) := by
  obtain ⟨u, hu, rfl⟩ := mapNext_next h
  have hb := acceptUnlessFaulted_sameBlock u p
  rcases presentWord_block hu with hs | ⟨hp, x, hx, rfl⟩ | ⟨hp, rfl⟩
  · exact .inl (hb.trans hs)
  · exact .inr (.inl ⟨hp, x, hx, hb⟩)
  · exact .inr (.inr ⟨hp, hb⟩)

/-- A one-byte sample fits one byte. -/
theorem acquire_fits (c : Config) (r : ConverterResult) : (acquire c r).toNat < 2 ^ unitWidth c := by
  rcases unitWidth_cases c with h | h
  · simp only [acquire, h, if_true, BitVec.toNat_setWidth]
    have := (readHighByte r).1.isLt
    omega
  · rw [h]; exact (acquire c r).isLt

theorem convHighFirstStep_block (lo hi : Byte) (s : State) :
    ∃ x, x.toNat < 2 ^ unitWidth s.cfg ∧ (convHighFirstStep lo hi s).SameBlock (pushSample x s) := by
  unfold convHighFirstStep
  split
  · exact ⟨_, acquire_fits _ _, .refl _⟩
  · rename_i h
    refine ⟨_, ?_, ⟨rfl, rfl, rfl, rfl, rfl, rfl⟩⟩
    rw [(unitWidth_cases s.cfg).resolve_left h]
    exact (Config.glitchedSample s.draws).isLt

/-- What the first step of READC does, whatever j is: RDOFF, and the READ of some slot put next. -/
theorem readcStep_eq (j : Nat) (s : State) : ∃ k d, readcStep j s = rdoffThenRead k d s := by
  unfold readcStep
  split <;> exact ⟨_, _, rfl⟩

/-- What one action of the host does: it writes the sampler's fields and nothing else. -/
theorem hostAction_next {a : HostInput} {s t : State} (h : hostAction a s = .next t) :
    t = { s with smp := t.smp } ∧
      ((∃ st, a = .setting st ∧ st.number = s.smp.initDone + 1 ∧
          t.smp = { applySetting s.cfg st s.smp with initDone := st.number }) ∨
        (a = .mask ∧ t.smp = { s.smp with gie := false }) ∨
        (a = .unmask ∧ 9 ≤ s.smp.initDone ∧ t.smp = { s.smp with gie := true })) := by
  cases a with
  | setting st =>
    simp only [hostAction, execSetting] at h
    split at h
    · rename_i hn; cases h; exact ⟨rfl, .inl ⟨st, rfl, hn, rfl⟩⟩
    · cases h
  | mask => cases h; exact ⟨rfl, .inr (.inl ⟨rfl, rfl⟩)⟩
  | unmask =>
    simp only [hostAction, execUnmask] at h
    split at h
    · cases h
    · rename_i hn; cases h; exact ⟨rfl, .inr (.inr ⟨rfl, by omega, rfl⟩)⟩

/-- The inversion lemma of step, over the block's own state: a step leaves the block as it is, or is a producer step
that writes one fitting sample, or a consumer step that releases, or a host action on the sampler. -/
theorem step_block {s t : State} (h : step s = .next t) :
    s.fault = none ∧
      (t.SameBlock s ∨
        (s.sched.head? = some .producer ∧ ∃ x, x.toNat < 2 ^ unitWidth s.cfg ∧ t.SameBlock (pushSample x s)) ∨
        (s.sched.head? = some .consumer ∧ t.SameBlock (releaseFrame s)) ∨
        (s.sched.head? = some .host ∧ ∃ a u, hostAction a s = .next u ∧ t.SameBlock u)) := by
  obtain ⟨hf, hs⟩ := unlessFaulted_next h
  refine ⟨hf, ?_⟩
  split at hs
  · cases hs; exact .inl (.refl _)
  · rename_i hsched
    rw [hsched]
    unfold producerStep at hs
    split at hs
    · cases hs; exact .inl (endTurn_sameBlock s)
    · rcases commandStep_block hs with hb | ⟨-, hx⟩ | ⟨hp, -⟩
      · exact .inl hb
      · exact .inr (.inl ⟨rfl, hx⟩)
      · cases hp
    · unfold eventStep at hs
      split at hs <;> cases hs
      · exact .inr (.inl ⟨rfl, _, acquire_fits _ _, accept_sameBlock _ .P⟩)
      · exact .inl (endTurn_sameBlock s)
    · rename_i lo hi _ _
      unfold eventStep at hs
      split at hs <;> cases hs
      · obtain ⟨x, hx, hb⟩ := convHighFirstStep_block lo hi s
        exact .inr (.inl ⟨rfl, x, hx, (accept_sameBlock _ .P).trans hb⟩)
      · exact .inl (endTurn_sameBlock s)
  · rename_i hsched
    rw [hsched]
    have command : ∀ {w u}, commandStep .C w s = .next u → u.SameBlock s ∨ u.SameBlock (releaseFrame s) := by
      intro w u hu
      rcases commandStep_block hu with hb | ⟨hp, -⟩ | ⟨-, hb⟩
      · exact .inl hb
      · cases hp
      · exact .inr hb
    have done : t.SameBlock s ∨ t.SameBlock (releaseFrame s) := by
      unfold consumerStep at hs
      split at hs
      · cases hs; exact .inl (endTurn_sameBlock s)
      · exact command hs
      · unfold waitbusyStep at hs
        split at hs
        · exact command hs
        · cases hs; exact .inl (endTurn_sameBlock s)
      · obtain ⟨k, d, he⟩ := readcStep_eq _ s
        obtain ⟨u, hu, rfl⟩ := mapNext_next (he ▸ hs)
        rcases command hu with hb | hb
        · exact .inl ⟨hb.cfg, hb.ping, hb.pong, hb.sel, hb.busy, hb.smp⟩
        · exact .inr ⟨hb.cfg, hb.ping, hb.pong, hb.sel, hb.busy, hb.smp⟩
    rcases done with hb | hb
    · exact .inl hb
    · exact .inr (.inr (.inl ⟨rfl, hb⟩))
  · rename_i hsched
    rw [hsched]
    unfold hostStep at hs
    split at hs
    · cases hs; exact .inl (endTurn_sameBlock s)
    · rename_i a rest _
      obtain ⟨u, hu, rfl⟩ := mapNext_next hs
      exact .inr (.inr (.inr ⟨rfl, a, u, hu, ⟨rfl, rfl, rfl, rfl, rfl, rfl⟩⟩))

end Sys2Proof.Machine
end

