-- ==== Sys2Proof/Tests/Slice0.lean ====
section
/-!
SUPPORT. Tests. Expected results are those of spec/95_test_vectors.md (the vector is named), of spec/30_encoding.md R81,
or worked by hand from the rule named. The second part shows, for each statement with hypotheses, a state that meets
them, at the boundaries of its clauses.
-/

namespace Sys2Proof.Tests

open Sys2Proof.Machine

/-! ### Small states -/

/-- N = 4, P = 16: U = 8. -/
def cfg8 : Config := ⟨.div16, false, 4, 0, by decide, by decide⟩

/-- N = 2, P = 64: U = 16 (program P4). -/
def cfg16 : Config := ⟨.div64, false, 2, 0, by decide, by decide⟩

/-- N = 1, P = 16. -/
def cfg1 : Config := ⟨.div16, false, 1, 0, by decide, by decide⟩

/-- A ring whose slots 0, 1, … hold the given units. -/
def ringOf (i size : Half) (units : List Half) : Ring :=
  ⟨i, size, (List.range units.length).zip units⟩

/-- A state of configuration c with the given roles and rings. -/
def stateOf (c : Config) (sel : RingId) (busy : Bool) (ping pong : Ring) : State :=
  { State.resetWith c with sel := sel, busy := busy, ping := ping, pong := pong }

/-- State A of spec/95_test_vectors.md: after the first promotion of program P1. -/
def stateA : State := stateOf cfg8 .pong true (ringOf 0 4 [10, 20, 30, 40]) Ring.fresh

/-- The sampler after its initialisation, for U = 16. -/
def started (c : Config) : SamplerCtl :=
  ⟨true, .freeRun, true, c.prescaler, .external, justification c, 0xFF#8, c.channel, true, true, 10⟩

/-- The state a result goes on with, if it does. -/
def after : Result → Option State
  | .next t => some t
  | _ => none

/-- A field of the state a result goes on with. -/
def field {α : Type} (f : State → α) (r : Result) : Option α := (after r).map f

/-- The decoder's answer, as data that can be compared. -/
def decoded (c : Config) (p : Port) (w : CmdWord) : Option Instr × Option DecodeError :=
  match decode c p w with
  | .ok i => (some i, none)
  | .error e => (none, some e)

/-- The build's refusal, if it refuses. -/
def refusal (o : BuildOptions) : Option BuildError :=
  match build o with
  | .ok _ => none
  | .error e => some e

/-- Every listed unit is below the bound. -/
theorem all_below {w : Nat} {xs : List Half} (h : xs.all (fun x => decide (x.toNat < w)) = true) :
    ∀ x ∈ xs, x.toNat < w := by simpa using h

/-! ### Well-formedness and the build -/

/-- spec/30_encoding.md R81: PUSH #0x1FF is not encodable with U = 8. -/
theorem test_wellFormed_push : Instr.wellFormed cfg8 (.push 0x1FF) = false ∧ Instr.wellFormed cfg8 (.push 0xFF) = true ∧
    Instr.wellFormed cfg16 (.push 0x1FF) = true := by decide

/-- spec/00_scope.md R10: each illegal option is refused. -/
theorem test_build_refuses :
    refusal ⟨2, none, 4, 0⟩ = some .prescaler ∧ refusal ⟨16, none, 0, 0⟩ = some .bufSize ∧
    refusal ⟨16, none, 65536, 0⟩ = some .bufSize ∧ refusal ⟨16, none, 4, 8⟩ = some .channel ∧
    refusal ⟨128, some true, 65535, 7⟩ = none := by decide

/-- Table V-S, its rows at the change of width: P = 16, and P = 32 with and without OVR8. -/
theorem test_widths :
    (unitWidth cfg8 = 8 ∧ justification cfg8 = .left) ∧
    (unitWidth { cfg8 with prescaler := .div32 } = 16 ∧ justification { cfg8 with prescaler := .div32 } = .right) ∧
    (effectiveWidth { cfg8 with prescaler := .div32, ovr8 := true } = 8) ∧
    (effectiveWidth { cfg8 with prescaler := .div4, ovr8 := true } = 5) := by decide

/-! ### Decoding: words written out from spec/30_encoding.md R71 to R76 -/

/-- V-P9 and V-D13: OP 0001, RSV 0, IMM the sample. -/
theorem test_decode_push :
    decoded cfg8 .P 0b0001_000000000000_0000000011111111#32 = (some (.push 0xFF), none) ∧
    decoded cfg16 .P 0b0001_000000000000_0000000100000000#32 = (some (.push 0x100), none) := by decide

/-- R81: OP 0010, IMM the slot index, up to 65535 whatever N is. -/
theorem test_decode_read :
    decoded cfg8 .C 0b0010_000000000000_0000000000000011#32 = (some (.read 3), none) ∧
    decoded cfg8 .C 0b0010_000000000000_1111111111111111#32 = (some (.read 65535), none) := by decide

/-- R81: OP 0011, 0100, 0101 and 0110. -/
theorem test_decode_others :
    decoded cfg8 .C 0b0011_000000000000_0000000000000000#32 = (some .rdoff, none) ∧
    decoded cfg8 .C 0b0100_000000000000_0000000000000000#32 = (some .rdstat, none) ∧
    decoded cfg8 .C 0b0101_000000000000_0000000000000000#32 = (some (.rdsize .capt), none) ∧
    decoded cfg8 .C 0b0101_000000000000_0000000000000001#32 = (some (.rdsize .proc), none) ∧
    decoded cfg8 .C 0b0110_000000000000_0000000000000000#32 = (some .release, none) := by decide

/-- V-D1, V-D2, V-D3, V-D14: reserved opcodes, first of all checks. -/
theorem test_decode_illegal :
    decoded cfg8 .P 0x00000000#32 = (none, some .illegalOp) ∧ decoded cfg8 .C 0x70000000#32 = (none, some .illegalOp) ∧
    decoded cfg8 .C 0xF0000000#32 = (none, some .illegalOp) ∧ decoded cfg8 .P 0x7FFF0000#32 = (none, some .illegalOp) := by
  decide

/-- V-D4, V-D5, V-D6, V-D15: the wrong port, before reserved bits. -/
theorem test_decode_wrong_port :
    decoded cfg8 .C 0x10000005#32 = (none, some .wrongPort) ∧ decoded cfg8 .P 0x20000000#32 = (none, some .wrongPort) ∧
    decoded cfg8 .P 0x60000000#32 = (none, some .wrongPort) ∧ decoded cfg8 .P 0x20010000#32 = (none, some .wrongPort) := by
  decide

/-- V-D7 to V-D12 and V-D18: reserved bits. -/
theorem test_decode_reserved_bits :
    decoded cfg8 .C 0x20010000#32 = (none, some .reservedBits) ∧
    decoded cfg8 .C 0x4FFF0000#32 = (none, some .reservedBits) ∧
    decoded cfg8 .C 0x40000001#32 = (none, some .reservedBits) ∧
    decoded cfg8 .C 0x30008000#32 = (none, some .reservedBits) ∧
    decoded cfg8 .C 0x50000002#32 = (none, some .reservedBits) ∧
    decoded cfg8 .P 0x10000100#32 = (none, some .reservedBits) ∧
    decoded cfg8 .C 0x60000001#32 = (none, some .reservedBits) := by decide

/-- The decoder as the host asks it, and a word run as the first command after reset (V-C13). -/
theorem test_table_words :
    decodeTableWord 32 0x10000000 = some (.push 0) ∧ decodeTableWord 32 0x50000001 = some (.rdsize .proc) ∧
    decodeTableWord 32 0x70000000 = none ∧
    field State.responses (step (State.reset.withFetchWord 32 0x40000000)) = some [0] ∧
    field State.posP (step (State.reset.withFetchWord 32 0x10000000)) = some 1 := by decide

/-! ### Commands -/

/-- V-P2: the write at the last slot wraps the index, and promotes. -/
theorem test_push_promotes :
    field (fun t => (t.ping, t.busy, t.sel)) (exec (.push 40) (stateOf cfg8 .ping false (ringOf 3 3 [10, 20, 30]) Ring.fresh)) =
      some (ringOf 0 4 [10, 20, 30, 40], true, .pong) := by decide

/-- V-P4: capt full at the release: overwrite the oldest, then promote. -/
theorem test_push_overwrites :
    field (fun t => (t.pong, t.busy, t.sel))
      (exec (.push 11) (stateOf cfg8 .pong false (ringOf 0 0 [1, 2, 3, 4]) (ringOf 2 4 [9, 10, 7, 8]))) =
      some (ringOf 3 4 [9, 10, 11, 8], true, .ping) := by decide

/-- V-C2 and V-C15: the unit, zero-extended. -/
theorem test_read_responds :
    field State.responses (exec (.read 3) stateA) = some [0x28] ∧
    field State.responses (exec (.read 0) (stateOf cfg16 .pong true (ringOf 0 2 [0x1FF, 0]) Ring.fresh)) = some [0x1FF] := by
  decide

/-- V-C3, V-C11, V-D17 and program P5a: F4 at k = N, F5 at reset, F4 before F5. -/
theorem test_read_faults :
    field State.fault (exec (.read 4) stateA) = some (some (.indexRange 0x20000004#32 4)) ∧
    field State.fault (exec (.read 0) (State.resetWith cfg8)) = some (some (.unwrittenRead 0x20000000#32 .pong 0)) ∧
    field State.fault (exec (.read 9) (State.resetWith cfg8)) = some (some (.indexRange 0x20000009#32 9)) := by decide

/-- Program P3, step 19: proc = pong with index 3. -/
theorem test_rdoff_responds :
    field State.responses (exec .rdoff (stateOf cfg8 .ping true (ringOf 0 0 [1, 2, 3, 4]) (ringOf 3 4 [9, 10, 11, 8]))) =
      some [3] := by decide

/-- V-C5, and the STAT table's rows 0x0007 and 0x0004. -/
theorem test_rdstat_responds :
    field State.responses (exec .rdstat stateA) = some [0x0003] ∧
    field State.responses (exec .rdstat (stateOf cfg8 .pong true stateA.ping (ringOf 0 4 [5, 6, 7, 8]))) = some [0x0007] ∧
    field State.responses (exec .rdstat (stateOf cfg8 .ping false stateA.ping Ring.fresh)) = some [0x0004] := by decide

/-- V-C6 and V-C7. -/
theorem test_rdsize_responds :
    field State.responses (exec (.rdsize .capt) stateA) = some [0] ∧
    field State.responses (exec (.rdsize .proc) stateA) = some [4] := by decide

/-- V-C8: the count and busy alone. -/
theorem test_release_clears :
    field (fun t => (t.ping, t.busy, t.sel)) (exec .release stateA) =
      some (ringOf 0 0 [10, 20, 30, 40], false, .pong) := by decide

/-! ### Events, settings, pseudo-instructions -/

/-- V-S2, V-S4, V-S7: the high byte alone, and the two bytes composed and not masked. -/
theorem test_acquire :
    acquire cfg8 (conversionResult 0x12 0xFF) = 0xFF ∧ acquire cfg16 (conversionResult 0x34 0x01) = 0x0134 ∧
    acquire cfg16 (conversionResult 0xAB 0xCD) = 0xCDAB := by decide

/-- Program P4, step 1; and V-S9: no step before the settings are done. -/
theorem test_conv :
    let s := { State.resetWith cfg16 with prodIn := [.conv 0x34 0x01], sched := [.producer] }
    field (fun t => (t.ping.mem, t.posP)) (step { s with smp := started cfg16 }) = some ([(0, 0x0134)], 1) ∧
    field (fun t => (t.ping.mem, t.posP, t.prodIn)) (step s) = some ([], 0, [.conv 0x34 0x01]) := by decide

/-- V-C14: READC #0 is the unit of slot 3, after the offset. -/
theorem test_readc :
    let s := stateOf cfg8 .ping true (ringOf 0 0 [1, 2, 3, 4]) (ringOf 3 4 [9, 10, 11, 8])
    field State.responses (steps 4 { s with consIn := [.readc 0, .readc 1], sched := List.replicate 4 .consumer }) =
      some [3, 8, 3, 9] := by decide

/-- spec/43_consumer.md R199: READC's RDOFF does not depend on j, so READC #4 with N = 4 responds with the offset. -/
theorem test_readc_beyond_range :
    field (fun t => (t.responses, t.posC, t.fault)) (step { stateA with consIn := [.readc 4], sched := [.consumer] }) =
      some ([0], 1, none) := by decide

/-- Program P1, steps 1 and 6: WAITBUSY is held at reset, and lifts in state A with 0x0003. -/
theorem test_waitbusy :
    field (fun t => (t.responses, t.posC)) (step { State.reset with consIn := [.waitbusy], sched := [.consumer] }) =
      some ([], 0) ∧
    field (fun t => (t.responses, t.posC)) (step { stateA with consIn := [.waitbusy], sched := [.consumer] }) =
      some ([3], 1) := by decide

/-- Program P5a: after the fault no step of either port occurs. -/
theorem test_faulted_state_stops :
    (match steps 2 (State.reset.withFetchWord 32 0x20000000) with
      | .fault (.unwrittenRead w r k) => w == 0x20000000#32 && r == .pong && k == 0
      | _ => false) = true := by decide

/-- spec/30_encoding.md R79: lines of the syntax. -/
theorem test_parse_lines :
    parseLine "PUSH #40".toList = some (none, .push (.lit 40)) ∧
    parseLine "L: C: RDSIZE proc ; count".toList = some (some .C, .rdsize .proc) ∧
    parseLine "P: RELEASE".toList = some (some .P, .release) ∧
    parseLine "CONV lo=0x34, hi=0x01".toList = some (none, .conv (some (.lit 0x34)) (.lit 1)) ∧
    parseLine "READ 3".toList = none := by decide

/-- Program P5c: RELEASE written at port P stands in port P's input. -/
theorem test_assemble_at_port :
    assemble cfg8 (.stmt (some .P) .release .done) 0 = some ⟨[.word 0x60000000#32], []⟩ ∧
    assemble cfg8 (.loop 2 (.stmt none (.push (.add .counter (.lit 1))) .done) .done) 0 =
      some ⟨[.word 0x10000001#32, .word 0x10000002#32], []⟩ ∧
    assemble cfg8 (.stmt none (.push (.lit 256)) .done) 0 = none := by decide

/-! ### Witnesses: states that meet the hypotheses of the statements -/

/-- Capturing with capt one short of full. -/
def nearlyFull : State := stateOf cfg8 .ping false (ringOf 3 3 [10, 20, 30]) Ring.fresh

/-- Draining with capt one short of full. -/
def race : State := stateOf cfg8 .pong true (ringOf 0 4 [1, 2, 3, 4]) (ringOf 3 3 [5, 6, 7])

theorem witness_DecodeOfEncode : Instr.wellFormed cfg8 (.push 0xFF) = true ∧ Instr.wellFormed cfg8 (.read 65535) = true := by
  decide

theorem witness_EncodeOfDecode : decoded cfg8 .C 0x50000001#32 = (some (.rdsize .proc), none) := by decide

theorem witness_DecodeChecksInOrder : (State.resetWith cfg8).fault = none ∧
    decoded (State.resetWith cfg8).cfg .P 0x00000000#32 = (none, some .illegalOp) := by decide

theorem witness_WordsOfTheEncodingTable : unitWidth cfg8 = 8 ∧ unitWidth cfg16 = 16 := by decide

theorem witness_WidthsFollowPrescaler : (256 : Nat) ∉ [4, 8, 16, 32, 64, 128] := by decide

theorem witness_IllegalBuildRefused :
    ((4 : Nat) ∈ [4, 8, 16, 32, 64, 128] ∧ 1 ≤ 65535 ∧ 65535 ≤ 65535 ∧ 7 ≤ 7) ∧
    ¬((4 : Nat) ∈ [4, 8, 16, 32, 64, 128] ∧ 1 ≤ 65536 ∧ 65536 ≤ 65535 ∧ 7 ≤ 7) := by decide

theorem witness_ResetValues : (3#16).toNat < cfg8.bufSize := by decide

theorem witness_PushStoresAndPromotes : nearlyFull.fault = none ∧ nearlyFull.RingsOk ∧ race.RingsOk := by decide

theorem witness_PushFrame : (after (exec (.push 40) nearlyFull)).isSome := by decide

theorem witness_PushNeverWaits : race.fault = none := by decide

theorem witness_ReadRespondsWithUnit : stateA.fault = none ∧ (3#16).toNat < stateA.cfg.bufSize ∧
    stateA.proc.mem.read (3#16).toNat = some 40 ∧ stateA.RingsOk := by decide

theorem witness_ReadFaultsOnRangeThenUnwritten :
    (stateA.fault = none ∧ stateA.cfg.bufSize ≤ (4#16).toNat) ∧
    (nearlyFull.fault = none ∧ (3#16).toNat < nearlyFull.cfg.bufSize ∧ nearlyFull.proc.mem.read (3#16).toNat = none) := by
  decide

theorem witness_RdoffRespondsWithOffset : stateA.fault = none := by decide

theorem witness_RdstatRespondsWithStatus : nearlyFull.fault = none ∧ 3 ≤ 15 := by decide

theorem witness_RdsizeRespondsWithCount : race.fault = none := by decide

theorem witness_ReleaseClearsProcAndBusy : stateA.fault = none := by decide

theorem witness_ReleaseIdempotent : (after (exec .release nearlyFull)).isSome ∧ nearlyFull.ProcCount ∧ nearlyFull.busy = false := by
  decide

theorem witness_ReadsHaveNoSideEffect :
    (∀ x, Instr.read 3 ≠ .push x) ∧ Instr.read 3 ≠ .release ∧
      field (fun t => t.fault.isNone) (exec (.read 3) stateA) = some true ∧
      field (fun t => t.fault.isNone) (exec (.read 4) stateA) = some false :=
  ⟨(by intro x h; cases h), by decide, by decide, by decide⟩

theorem witness_CaptStorageHiddenFromConsumer :
    (∀ x, Instr.release ≠ .push x) ∧ (after (exec .release stateA)).isSome :=
  ⟨(by intro x h; cases h), by decide⟩

theorem witness_ProcHiddenFromProducer : (after (exec (.push 8) race)).isSome := by decide

theorem witness_FirstFaultOfAWord :
    let s := stateA.present .C 0x20000004#32
    let t := nearlyFull.present .P 0x10000100#32
    (s.fault = none ∧ s.sched.head? = some (agentOfPort .C) ∧ s.consIn.head? = some (.word 0x20000004#32)) ∧
      (t.fault = none ∧ t.sched.head? = some (agentOfPort .P) ∧ t.prodIn.head? = some (.word 0x10000100#32)) := by decide

/-- Each clause of FirstFaultOfAWord, at the opcodes, bits and indices where it begins and ends. -/
theorem witness_FirstFaultOfAWord_clauses :
    field State.fault (step (stateA.present .C 0x70000000#32)) = some (some (.illegalOp .C 0x70000000#32)) ∧
    field State.fault (step (stateA.present .P 0x60000000#32)) = some (some (.wrongPort .P 0x60000000#32)) ∧
    field State.fault (step (stateA.present .P 0x10000100#32)) = some (some (.reservedBits .P 0x10000100#32)) ∧
    field State.fault (step (stateA.present .C 0x50000002#32)) = some (some (.reservedBits .C 0x50000002#32)) ∧
    field State.fault (step (stateA.present .C 0x60000001#32)) = some (some (.reservedBits .C 0x60000001#32)) ∧
    field State.fault (step (stateA.present .C 0x20000004#32)) = some (some (.indexRange 0x20000004#32 4)) ∧
    field State.fault (step (nearlyFull.present .C 0x20000003#32)) = some (some (.unwrittenRead 0x20000003#32 .pong 3)) ∧
    field State.fault (step (stateA.present .C 0x20000003#32)) = some none := by decide

theorem witness_FaultedStateIsQuiescent :
    field (fun t => t.fault.isSome) (step (stateA.present .C 0x00000000#32)) = some true := by decide

theorem witness_StepRunsDecodedCommand :
    let s := stateA.present .C 0x60000000#32
    s.fault = none ∧ s.sched.head? = some (agentOfPort .C) ∧ s.consIn.head? = some (.word 0x60000000#32) ∧
      decoded s.cfg .C 0x60000000#32 = (some .release, none) ∧ field State.fault (exec .release s) = some none ∧
      field (fun t => t.fault.isSome) (exec (.read 4) s) = some true := by decide

theorem witness_IdleTurnChangesNothing :
    let s := { State.reset with sched := [.host] }
    (State.reset.fault = none ∧ State.reset.sched = []) ∧ s.fault = none ∧ s.sched.head? = some .host ∧ s.hostIn = [] := by
  decide

theorem witness_StepKeepsConfigAndPositions :
    field State.posC (step (stateA.present .C 0x40000000#32)) = some 1 ∧
    field State.posP (step (stateA.present .P 0x10000001#32)) = some 1 := by decide

theorem witness_StepKeepsInvariant : race.Inv ∧ (after (step (race.present .P 0x10000008#32))).isSome := by decide

theorem witness_InvariantAfterReset : (State.resetWith cfg8).PoweredOn := ⟨rfl, rfl, rfl, rfl, rfl, rfl, rfl, rfl, rfl⟩

theorem witness_ReachableProcCount :
    (after (steps 1 { State.resetWith cfg1 with prodIn := [.word 0x10000001#32], sched := [.producer] })).isSome ∧
    field State.busy (steps 1 { State.resetWith cfg1 with prodIn := [.word 0x10000001#32], sched := [.producer] }) =
      some true := by decide

theorem witness_PublishedFrameFullyWritten : stateA.Inv ∧ stateA.busy = true ∧ stateA.fault = none ∧
    (3#16).toNat < stateA.cfg.bufSize := by decide

theorem witness_NewCaptEmptyAtPromotion : nearlyFull.Inv ∧ nearlyFull.busy = false ∧
    field State.busy (exec (.push 40) nearlyFull) = some true := by decide

theorem witness_PromotionIsAtomic :
    field (fun t => (t.busy, t.sel)) (step (nearlyFull.present .P 0x10000028#32)) = some (true, .pong) ∧
    field (fun t => (t.busy, t.sel)) (exec (.push 40) nearlyFull) = some (true, .pong) := by decide

theorem witness_NoRotationWhileBusy :
    let s := race.present .P 0x10000008#32
    s.busy = true ∧ s.sched.head? = some .producer ∧ (after (step s)).isSome ∧ (after (exec (.push 8) race)).isSome := by
  decide

theorem witness_FrameStableWhileBusy :
    field State.busy (step (race.present .P 0x10000008#32)) = some true ∧
    field State.busy (step (race.present .C 0x60000000#32)) = some false := by decide

theorem witness_PromotionAtFirstFullPush : nearlyFull.fault = none ∧ nearlyFull.Inv ∧ nearlyFull.busy = false ∧
    [(40 : Half)].length ≤ max 1 (nearlyFull.cfg.bufSize - nearlyFull.capt.size.toNat) ∧
    ([] : List Half).length < max 1 (nearlyFull.cfg.bufSize - nearlyFull.capt.size.toNat) := by decide

theorem witness_ExactRaceBothOrders : race.fault = none ∧ race.Inv ∧ race.busy = true ∧
    race.capt.size.toNat + 1 = race.cfg.bufSize := by decide

theorem witness_CountLaws : (ringOf 3 4 [9, 10, 11, 8]).i.toNat < cfg8.bufSize ∧
    (ringOf 3 4 [9, 10, 11, 8]).size.toNat ≤ cfg8.bufSize := by decide

theorem witness_OrderLaw : (ringOf 2 0 [5, 6, 3, 4]).i.toNat < cfg8.bufSize ∧ (ringOf 2 0 [5, 6, 3, 4]).size = 0 ∧
    ringFull cfg8 (ringWrites cfg8 (ringOf 2 0 [5, 6, 3, 4]) [7, 8, 9, 10]) = true ∧
    cfg8.bufSize ≤ [(7 : Half), 8, 9, 10].length := by decide

theorem witness_FrameIsTheNSamples :
    let s := State.resetWith cfg8
    s.fault = none ∧ s.Inv ∧ s.busy = false ∧ s.capt.size = 0 ∧ [(10 : Half), 20, 30, 40].length = s.cfg.bufSize ∧
      ∀ x ∈ [(10 : Half), 20, 30, 255], x.toNat < 2 ^ unitWidth s.cfg :=
  ⟨rfl, by decide, rfl, rfl, rfl, all_below (by decide)⟩

theorem witness_OverrunFrameIsTheLastN : stateA.fault = none ∧ stateA.Inv ∧ stateA.busy = true ∧ stateA.capt.size = 0 ∧
    stateA.cfg.bufSize ≤ [(5 : Half), 6, 7, 8].length ∧
    ∀ x ∈ [(5 : Half), 6, 7, 8] ++ [9], x.toNat < 2 ^ unitWidth stateA.cfg :=
  ⟨rfl, by decide, rfl, rfl, by decide, all_below (by decide)⟩

theorem witness_ReleaseInTimeLosesNothing : stateA.fault = none ∧ stateA.Inv ∧ stateA.busy = true ∧
    stateA.capt.size = 0 ∧ [(5 : Half), 6, 7].length + [(8 : Half)].length = stateA.cfg.bufSize ∧ [(8 : Half)] ≠ [] ∧
    ∀ x ∈ [(5 : Half), 6, 7] ++ [8], x.toNat < 2 ^ unitWidth stateA.cfg :=
  ⟨rfl, by decide, rfl, rfl, rfl, by decide, all_below (by decide)⟩

theorem witness_ConvActsAsPush :
    let s := { State.resetWith cfg16 with smp := started cfg16, prodIn := [.conv 0x34 0x01], sched := [.producer] }
    s.fault = none ∧ s.sched.head? = some .producer ∧ s.prodIn = .conv 0x34 0x01 :: [] ∧ s.smp.initDone = 10 ∧
      s.smp.ie = true ∧ s.smp.gie = true := by decide

theorem witness_ConvWaitsUntilEnabled :
    let s := { State.resetWith cfg16 with
      smp := { started cfg16 with gie := false }, prodIn := [.convHighFirst 1 2], sched := [.producer] }
    s.fault = none ∧ s.sched.head? = some .producer ∧ s.prodIn.head? = some (.convHighFirst 1 2) ∧ s.smp.gie = false := by
  decide

theorem witness_WrongReadOrderGlitchesOneSample :
    let s := { State.resetWith cfg16 with smp := started cfg16, prodIn := [.convHighFirst 1 2], sched := [.producer] }
    s.fault = none ∧ s.sched.head? = some .producer ∧ s.prodIn = .convHighFirst 1 2 :: [] ∧ s.smp.initDone = 10 ∧
      s.smp.ie = true ∧ s.smp.gie = true ∧ unitWidth s.cfg = 16 := by decide

theorem witness_InitialisationWritesTheSettings :
    let s := { State.resetWith cfg16 with
      hostIn := initSequence.map .setting ++ [.mask], sched := List.replicate 10 .host ++ [.producer] }
    s.fault = none ∧ s.smp.initDone = 0 ∧ s.hostIn = initSequence.map .setting ++ [.mask] ∧
      s.sched = List.replicate 10 .host ++ [.producer] ∧ field (fun t => t.smp.running) (steps 9 s) = some false := by
  decide

theorem witness_SettingsOutOfOrderRefused :
    InitStep.number .globalInterrupts ≠ State.reset.smp.initDone + 1 ∧ State.reset.smp.initDone < 9 := by decide

theorem witness_MaskingWritesGieAlone :
    let s := { State.resetWith cfg16 with smp := started cfg16, hostIn := [.unmask], sched := [.host] }
    s.fault = none ∧ s.sched.head? = some .host ∧ s.hostIn = .unmask :: [] ∧ 9 ≤ s.smp.initDone ∧
      ({ s with hostIn := [.mask] } : State).hostIn = .mask :: [] := by decide

theorem witness_RunningIsNeverCleared :
    let s := { State.resetWith cfg16 with smp := started cfg16, hostIn := [.mask], sched := [.host] }
    s.smp.running = true ∧ field (fun t => t.smp.gie) (step s) = some false := by decide

theorem witness_WaitbusyHoldsUntilBusy :
    let s := { nearlyFull with consIn := [.waitbusy], sched := [.consumer] }
    let t := { stateA with consIn := [.waitbusy], sched := [.consumer] }
    (s.fault = none ∧ s.sched.head? = some .consumer ∧ s.consIn = .waitbusy :: [] ∧ s.busy = false) ∧
      (t.fault = none ∧ t.sched.head? = some .consumer ∧ t.consIn = .waitbusy :: [] ∧ t.busy = true) := by decide

theorem witness_ReadcReadsJthOldest :
    let s := { stateA with consIn := [.readc 3], sched := [.consumer, .consumer] }
    s.fault = none ∧ s.Inv ∧ s.busy = true ∧ s.sched = .consumer :: .consumer :: [] ∧ s.consIn = .readc 3 :: [] ∧
      3 < s.cfg.bufSize := by decide

theorem witness_ReadcBeyondRangeReadsFreeSlot :
    let s := { stateA with consIn := [.readc 4], sched := [.consumer, .consumer] }
    s.fault = none ∧ s.sched.head? = some .consumer ∧ s.consIn = .readc 4 :: [] ∧ s.cfg.bufSize ≤ 4 ∧
      s.sched.tail.head? = some .consumer := by decide

end Sys2Proof.Tests
end

section
/-!
The build's refusal of illegal options (spec/00_scope.md R6, R10): a prescaler is legal exactly when it is a divider's
value, and the build answers a configuration exactly when that configuration has the values of the options.
-/

namespace Sys2Proof.Machine

@[simp] theorem prescalerOf_prescalerValue (p : Prescaler) : prescalerOf (prescalerValue p) = some p := by
  cases p <;> rfl

theorem prescalerValue_of_prescalerOf {n : Nat} {p : Prescaler} (h : prescalerOf n = some p) :
    prescalerValue p = n := by
  unfold prescalerOf at h
  split at h <;> cases h <;> rfl

theorem mem_prescalers_iff (n : Nat) : n ∈ [4, 8, 16, 32, 64, 128] ↔ ∃ p, prescalerValue p = n := by
  constructor
  · intro h
    simp only [List.mem_cons, List.not_mem_nil, or_false] at h
    obtain rfl | rfl | rfl | rfl | rfl | rfl := h
    exacts [⟨.div4, rfl⟩, ⟨.div8, rfl⟩, ⟨.div16, rfl⟩, ⟨.div32, rfl⟩, ⟨.div64, rfl⟩, ⟨.div128, rfl⟩]
  · rintro ⟨p, rfl⟩
    cases p <;> decide

/-- The options' values are those of the configuration; an absent override is false (spec/00_scope.md R6). -/
def BuildOptions.Describes (o : BuildOptions) (c : Config) : Prop :=
  prescalerValue c.prescaler = o.prescaler ∧ c.ovr8 = o.widthOverride8.getD false ∧
    c.bufSize = o.bufSize ∧ c.channel.val = o.channel

theorem build_eq_ok_iff (o : BuildOptions) (c : Config) : build o = .ok c ↔ o.Describes c := by
  constructor
  · intro h
    unfold build at h
    split at h
    · cases h
    next p hp =>
      split at h
      · split at h
        · cases h
          exact ⟨prescalerValue_of_prescalerOf hp, rfl, rfl, rfl⟩
        · cases h
      · cases h
  · rintro ⟨hp, hovr8, hN, hC⟩
    simp [build, ← hp, ← hovr8, ← hN, ← hC, c.bufSize_pos, c.bufSize_le]

theorem exists_describes_iff (o : BuildOptions) :
    (∃ c, o.Describes c) ↔
      o.prescaler ∈ [4, 8, 16, 32, 64, 128] ∧ 1 ≤ o.bufSize ∧ o.bufSize ≤ 65535 ∧ o.channel ≤ 7 := by
  rw [mem_prescalers_iff]
  constructor
  · rintro ⟨c, hp, -, hN, hC⟩
    exact ⟨⟨c.prescaler, hp⟩, hN ▸ c.bufSize_pos, hN ▸ c.bufSize_le, by omega⟩
  · rintro ⟨⟨p, hp⟩, hpos, hle, hC⟩
    exact ⟨⟨p, o.widthOverride8.getD false, o.bufSize, ⟨o.channel, by omega⟩, hpos, hle⟩, hp, rfl, rfl, rfl⟩

/-- Settles O6: legal options are those that describe some configuration, and the build answers exactly the
configuration that its options describe. -/
theorem illegalBuildRefused : Obligations.IllegalBuildRefused := by
  intro o
  rw [← exists_describes_iff]
  constructor
  · rintro ⟨c, hc⟩
    exact ⟨c, (build_eq_ok_iff o c).mpr hc, hc⟩
  · intro hnone
    cases hb : build o with
    | error e => exact ⟨e, rfl⟩
    | ok c => exact absurd ⟨c, (build_eq_ok_iff o c).mp hb⟩ hnone

end Sys2Proof.Machine
end

section
/-!
The invariant (spec/10_state.md R22, R38, R39; spec/42_sampler.md R168 to R170): it holds after reset, each way a step
acts on the block keeps it (`step_block` lists them), and so it holds in every state a run from reset reaches.
-/

namespace Sys2Proof.Machine

/-! ### What the invariant speaks of -/

theorem ringsOk_iff (s : State) : s.RingsOk ↔ ∀ r, (s.ring r).ok s.cfg = true :=
  ⟨fun ⟨hping, hpong⟩ r => match r with | .ping => hping | .pong => hpong, fun h => ⟨h .ping, h .pong⟩⟩

theorem State.Inv.proc_ok {s : State} (h : s.Inv) : s.proc.ok s.cfg = true :=
  (ringsOk_iff s).1 h.1 s.procId

/-- The invariant is about the block alone: inputs, outputs and the fault mark do not enter into it. -/
theorem State.SameBlock.inv {s t : State} (h : t.SameBlock s) (hs : s.Inv) : t.Inv := by
  cases s
  cases t
  obtain ⟨rfl, rfl, rfl, rfl, rfl, rfl⟩ := h
  exact hs

/-! ### A sample -/

theorem pushSample_ringsOk {s : State} {x : Half} (h : s.RingsOk) (hx : x.toNat < 2 ^ unitWidth s.cfg) :
    (pushSample x s).RingsOk := by
  rw [ringsOk_iff] at h ⊢
  intro r
  rw [pushSample_cfg]
  rcases RingId.eq_or_eq_other r s.sel with rfl | rfl
  · rw [pushSample_ring_capt]
    exact ringWrite_ok _ _ _ (h _) hx
  · rw [pushSample_ring_proc]
    exact h _

/-- A promotion makes a full ring proc; any other PUSH leaves proc and busy as they were (spec/41_producer.md R130). -/
theorem pushSample_procCount {s : State} {x : Half} (h : s.ProcCount) : (pushSample x s).ProcCount := by
  simp only [State.ProcCount, State.proc, State.procId, pushSample_busy, pushSample_sel, pushSample_cfg] at h ⊢
  cases hfull : ringFull s.cfg (ringWrite s.cfg s.capt x) with
  | false => simpa using h
  | true =>
    cases hbusy : s.busy with
    | true => simpa [hbusy] using h
    | false => simpa [ringFull, State.capt] using hfull

theorem pushSample_inv {s : State} {x : Half} (h : s.Inv) (hx : x.toNat < 2 ^ unitWidth s.cfg) :
    (pushSample x s).Inv := by
  obtain ⟨hrings, hcount, hsmp⟩ := h
  refine ⟨pushSample_ringsOk hrings hx, pushSample_procCount hcount, ?_⟩
  rwa [State.SamplerOk, pushSample_cfg, pushSample_smp]

/-! ### A release -/

theorem releaseFrame_ringsOk {s : State} (h : s.RingsOk) : (releaseFrame s).RingsOk := by
  rw [ringsOk_iff] at h ⊢
  intro r
  rw [releaseFrame_cfg]
  rcases RingId.eq_or_eq_other r s.sel with rfl | rfl
  · rw [releaseFrame_ring_capt]
    exact h _
  · rw [releaseFrame_ring_proc]
    exact ringClear_ok _ _ (h _)

theorem releaseFrame_procCount (s : State) : (releaseFrame s).ProcCount := by
  simp [State.ProcCount, State.proc, State.procId, ringClear]

theorem releaseFrame_inv {s : State} (h : s.Inv) : (releaseFrame s).Inv := by
  obtain ⟨hrings, -, hsmp⟩ := h
  refine ⟨releaseFrame_ringsOk hrings, releaseFrame_procCount s, ?_⟩
  rwa [State.SamplerOk, releaseFrame_cfg, releaseFrame_smp]

/-! ### The host's actions on the sampler -/

theorem InitStep.number_pos (st : InitStep) : 1 ≤ st.number := by cases st <;> decide

theorem InitStep.number_le_ten (st : InitStep) : st.number ≤ 10 := by cases st <;> decide

theorem InitStep.eq_of_number_eq {a b : InitStep} (h : a.number = b.number) : a = b := by
  cases a <;> cases b <;> trivial

/-- Which settings hold does not depend on how many are done. -/
theorem settingHolds_initDone (c : Config) (p : SamplerCtl) (n : Nat) (st : InitStep) :
    settingHolds c { p with initDone := n } st = settingHolds c p st := by
  cases st <;> rfl

/-- Which settings hold does not depend on GIE (spec/60_exceptions.md R235). -/
theorem settingHolds_gie (c : Config) (p : SamplerCtl) (b : Bool) (st : InitStep) :
    settingHolds c { p with gie := b } st = settingHolds c p st := by
  cases st <;> rfl

theorem settingHolds_applySetting_same (c : Config) (p : SamplerCtl) (st : InitStep) :
    settingHolds c (applySetting c st p) st = true := by
  cases st <;> simp [settingHolds, applySetting]

/-- A setting writes its own field alone. -/
theorem settingHolds_applySetting_ne (c : Config) (p : SamplerCtl) {st other : InitStep} (h : other ≠ st) :
    settingHolds c (applySetting c st p) other = settingHolds c p other := by
  cases st <;> cases other <;> trivial

/-- Only the tenth setting triggers the first conversion. -/
theorem applySetting_start (c : Config) (p : SamplerCtl) {st : InitStep} (h : st.number ≠ 10) :
    (applySetting c st p).start = p.start := by
  cases st <;> trivial

/-- The next setting in order keeps the sampler's part of the invariant (spec/42_sampler.md R168 to R170). -/
theorem samplerOk_applySetting {s : State} {st : InitStep} (h : s.SamplerOk) (hnext : st.number = s.smp.initDone + 1) :
    State.SamplerOk { s with smp := { applySetting s.cfg st s.smp with initDone := st.number } } := by
  obtain ⟨-, hdone, hstart⟩ := h
  refine ⟨st.number_le_ten, fun other hmem hle => ?_, fun hst => ?_⟩
  · rw [settingHolds_initDone]
    by_cases heq : other = st
    · rw [heq]
      exact settingHolds_applySetting_same _ _ _
    · have hlt : other.number < st.number := lt_of_le_of_ne hle fun hn => heq (InitStep.eq_of_number_eq hn)
      rw [settingHolds_applySetting_ne _ _ heq]
      exact hdone other hmem (by omega)
  · by_cases hten : st.number = 10
    · simp [SamplerCtl.running, hten]
    · have hrun := hstart ((applySetting_start s.cfg s.smp hten).symm.trans hst)
      have hle := st.number_le_ten
      simp only [SamplerCtl.running, beq_iff_eq] at hrun
      omega

theorem samplerOk_gie {s : State} (h : s.SamplerOk) (b : Bool) :
    State.SamplerOk { s with smp := { s.smp with gie := b } } := by
  obtain ⟨hle, hdone, hstart⟩ := h
  exact ⟨hle, fun st hmem hn => (settingHolds_gie _ _ _ _).trans (hdone st hmem hn), hstart⟩

theorem hostAction_inv {a : HostInput} {s t : State} (h : s.Inv) (hact : hostAction a s = .next t) : t.Inv := by
  obtain ⟨hrings, hcount, hsmp⟩ := h
  obtain ⟨ht, hcases⟩ := hostAction_next hact
  rw [ht]
  refine ⟨hrings, hcount, ?_⟩
  rcases hcases with ⟨st, -, hnext, heq⟩ | ⟨-, heq⟩ | ⟨-, -, heq⟩
  · rw [heq]; exact samplerOk_applySetting hsmp hnext
  · rw [heq]; exact samplerOk_gie hsmp false
  · rw [heq]; exact samplerOk_gie hsmp true

/-! ### Steps and runs -/

/-- Settles O26: whichever of the ways of `step_block` a step acts on the block, it keeps the invariant. -/
theorem stepKeepsInvariant : Obligations.StepKeepsInvariant := by
  intro s t hinv hstep
  obtain ⟨-, hsame | ⟨-, x, hx, hpush⟩ | ⟨-, hrelease⟩ | ⟨-, a, u, hact, hhost⟩⟩ := step_block hstep
  · exact hsame.inv hinv
  · exact hpush.inv (pushSample_inv hinv hx)
  · exact hrelease.inv (releaseFrame_inv hinv)
  · exact hhost.inv (hostAction_inv hinv hact)

/-- What every step keeps, every run keeps. -/
theorem steps_induction {motive : State → Prop} (hstep : ∀ s t, motive s → step s = .next t → motive t) {k : Nat}
    {s t : State} (hs : motive s) (h : steps k s = .next t) : motive t := by
  induction k generalizing s with
  | zero =>
    cases h
    exact hs
  | succ k ih =>
    simp only [steps] at h
    split at h
    next u hu => exact ih (hstep s u hs hu) h
    · cases h
    · cases h

theorem State.PoweredOn.inv {s : State} (h : s.PoweredOn) : s.Inv := by
  refine ⟨?_, ?_, ?_, fun st _ hle => ?_, fun hst => ?_⟩
  · exact ⟨by simp [h.ping], by simp [h.pong]⟩
  · simp [State.ProcCount, State.proc, State.procId, RingId.other, h.sel, h.pong, h.busy, Ring.fresh]
  · simp [h.initDone]
  · have hpos := st.number_pos
    rw [h.initDone] at hle
    omega
  · simp [h.start] at hst

theorem resetWith_poweredOn (c : Config) : (State.resetWith c).PoweredOn :=
  ⟨rfl, rfl, rfl, rfl, rfl, rfl, rfl, rfl, rfl⟩

/-- Settles O27: fresh rings are in good order and count nothing, and no setting is done yet. -/
theorem invariantAfterReset : Obligations.InvariantAfterReset :=
  ⟨fun _ h => h.inv, resetWith_poweredOn, (resetWith_poweredOn _).inv⟩

/-- Settles O28: the count of proc is part of the invariant, which every run from reset keeps. -/
theorem reachableProcCount : Obligations.ReachableProcCount := by
  intro s t k hon hrun
  obtain ⟨-, hcount, -⟩ := steps_induction stepKeepsInvariant hon.inv hrun
  exact hcount

end Sys2Proof.Machine
end

section
/-!
What the invariant says of a frame: while busy, proc is a full ring, all of whose slots are written (spec/10_state.md
R40); a promotion leaves an empty capt with the former index of proc (R41); and no ring holds anything right after
reset (R37).
-/

namespace Sys2Proof.Machine

/-! ### The published frame -/

/-- Every slot of a ring lies at some distance from 1 to N behind the index (spec/40_ring.md R108). -/
theorem exists_slot_behind {n i k : Nat} (hi : i < n) (hk : k < n) : ∃ j < n, (i + (n - (j + 1))) % n = k := by
  by_cases hki : k < i
  · refine ⟨i - k - 1, by omega, ?_⟩
    rw [show i + (n - (i - k - 1 + 1)) = k + n by omega, Nat.add_mod_right, Nat.mod_eq_of_lt hk]
  · refine ⟨i + n - k - 1, by omega, ?_⟩
    rw [show i + (n - (i + n - k - 1 + 1)) = k by omega, Nat.mod_eq_of_lt hk]

/-- In a full ring every slot is among the last N written. -/
theorem wr_of_full {c : Config} {r : Ring} (h : r.ok c = true) (hfull : r.size.toNat = c.bufSize) {k : Nat}
    (hk : k < c.bufSize) : r.wr k = true := by
  obtain ⟨hi, -, -, -, hwr⟩ := (Ring.ok_iff c r).1 h
  obtain ⟨j, hj, rfl⟩ := exists_slot_behind hi hk
  exact hwr j (hfull ▸ hj)

theorem State.Inv.proc_wr {s : State} (h : s.Inv) (hbusy : s.busy = true) {k : Nat} (hk : k < s.cfg.bufSize) :
    s.proc.wr k = true := by
  have ⟨_, hcount, _⟩ := h
  exact wr_of_full h.proc_ok (hcount.trans (if_pos hbusy)) hk

theorem exec_read_written {s : State} (hf : s.fault = none) {k v : Half} (hk : k.toNat < s.cfg.bufSize)
    (hv : s.proc.mem.read k.toNat = some v) : exec (.read k) s = .next (s.respond v) := by
  rw [exec_live _ hf, instrEffect, ringIndex_ok hk hv, readResult]

theorem exec_read_unwritten {s : State} (hf : s.fault = none) {k : Half} (hk : k.toNat < s.cfg.bufSize)
    (hv : s.proc.mem.read k.toNat = none) :
    exec (.read k) s = .next (s.raise (.unwrittenRead (encode (.read k)) s.procId k)) := by
  rw [exec_live _ hf, instrEffect, ringIndex_unwritten hk hv, readResult]

/-- Settles O29: while busy the count of proc is N, so that every slot is among the counted, written ones. -/
theorem publishedFrameFullyWritten : Obligations.PublishedFrameFullyWritten := by
  intro s hinv hbusy
  refine ⟨fun k hk => hinv.proc_wr hbusy hk, fun k hf hk => ?_⟩
  obtain ⟨v, hv⟩ := Option.isSome_iff_exists.1 (hinv.proc_wr hbusy hk)
  exact ⟨v, exec_read_written hf hk hv⟩

/-! ### The new capt at a promotion -/

/-- A sample that raises busy promotes: capt is the former proc, unchanged (spec/41_producer.md R131). -/
theorem pushSample_capt_of_promotion {s : State} {x : Half} (hbefore : s.busy = false)
    (hafter : (pushSample x s).busy = true) : (pushSample x s).capt = s.proc := by
  have hfull : ringFull s.cfg (ringWrite s.cfg s.capt x) = true := by simpa [pushSample_busy, hbefore] using hafter
  have hsel : (pushSample x s).sel = s.sel.other := by simp [pushSample_sel, hbefore, hfull]
  rw [State.capt, hsel, pushSample_ring_proc, State.proc, State.procId]

/-- Settles O30: the new capt is the former proc, whose count is 0 while busy is 0. -/
theorem newCaptEmptyAtPromotion : Obligations.NewCaptEmptyAtPromotion := by
  intro s t x hinv hexec hbefore hafter
  obtain ⟨-, hcount, -⟩ := hinv
  obtain ⟨-, rfl⟩ := (exec_next_iff _ s t).1 hexec
  have hcapt : (instrEffect s (.push x)).capt = s.proc := pushSample_capt_of_promotion hbefore hafter
  rw [hcapt]
  exact ⟨BitVec.eq_of_toNat_eq (hcount.trans (by simp [hbefore])), rfl⟩

/-! ### The state after reset -/

@[simp] theorem resetWith_ring (c : Config) (r : RingId) : (State.resetWith c).ring r = Ring.fresh := by
  cases r <;> rfl

theorem exec_read_after_reset (c : Config) {k : Half} (hk : k.toNat < c.bufSize) :
    exec (.read k) (State.resetWith c) =
      .next { State.resetWith c with fault := some (.unwrittenRead (encode (.read k)) .pong k) } :=
  exec_read_unwritten rfl hk rfl

theorem resetWith_stat (c : Config) : (State.resetWith c).stat = 0 := by
  have hempty : (State.resetWith c).captFull = false := by
    simpa [State.captFull, State.capt, ringFull, Ring.fresh] using Nat.ne_of_lt (State.resetWith c).cfg.bufSize_pos
  rw [State.stat, hempty]
  change 0#13 ++ BitVec.ofBool false ++ 0#1 ++ BitVec.ofBool false = 0
  decide

/-- Settles O7: the fields are those of `State.resetWith`; that capt is not full rests on 1 ≤ N. -/
theorem resetValues : Obligations.ResetValues := by
  intro c
  refine ⟨rfl, rfl, rfl, rfl, rfl, fun r k => ?_, fun k hk => exec_read_after_reset c hk, rfl, rfl,
    resetWith_stat c, rfl, rfl, rfl, rfl, rfl⟩
  rw [resetWith_ring]
  exact ⟨rfl, rfl⟩

end Sys2Proof.Machine
end

section
/-!
What a turn leaves unchanged outside the rings (spec/00_scope.md R6, spec/10_state.md R25, R29): the configuration, and
what belongs to another agent.
-/

namespace Sys2Proof.Machine

/-- t follows s by inputs at port p of which n were accepted: the configuration, the host's fields and the other port's
position are kept, and only port C responds. -/
structure State.PortTurn (p : Port) (n : Nat) (s t : State) : Prop where
  cfg : t.cfg = s.cfg
  smp : t.smp = s.smp
  hostIn : t.hostIn = s.hostIn
  responses : s.responses <+: t.responses
  silent : p = .P → t.responses = s.responses
  posP : t.posP = s.posP + if p = .P then n else 0
  posC : t.posC = s.posC + if p = .C then n else 0

theorem State.PortTurn.refl (p : Port) (s : State) : State.PortTurn p 0 s s :=
  ⟨rfl, rfl, rfl, List.prefix_refl _, fun _ => rfl, by simp, by simp⟩

theorem State.PortTurn.trans {p : Port} {m n : Nat} {s t u : State} (h : State.PortTurn p m s t)
    (g : State.PortTurn p n t u) : State.PortTurn p (m + n) s u where
  cfg := g.cfg.trans h.cfg
  smp := g.smp.trans h.smp
  hostIn := g.hostIn.trans h.hostIn
  responses := h.responses.trans g.responses
  silent hp := (g.silent hp).trans (h.silent hp)
  posP := by rw [g.posP, h.posP]; split <;> omega
  posC := by rw [g.posC, h.posC]; split <;> omega

/-! ### The parts of a turn -/

theorem endTurn_portTurn (p : Port) (s : State) : State.PortTurn p 0 s s.endTurn :=
  ⟨rfl, rfl, rfl, List.prefix_refl _, fun _ => rfl, by simp, by simp⟩

theorem raise_portTurn (p : Port) (s : State) (f : Fault) : State.PortTurn p 0 s (s.raise f) :=
  ⟨rfl, rfl, rfl, List.prefix_refl _, fun _ => rfl, by simp, by simp⟩

theorem accept_portTurn (p : Port) (s : State) : State.PortTurn p 1 s (s.accept p) := by
  cases p <;> exact ⟨rfl, rfl, rfl, List.prefix_refl _, fun _ => rfl, rfl, rfl⟩

theorem respond_portTurn (s : State) (v : Half) : State.PortTurn .C 0 s (s.respond v) :=
  ⟨rfl, rfl, rfl, List.prefix_append _ _, nofun, rfl, rfl⟩

theorem pushSample_portTurn (x : Half) (s : State) : State.PortTurn .P 0 s (pushSample x s) := by
  constructor <;> simp

theorem releaseFrame_portTurn (s : State) : State.PortTurn .C 0 s (releaseFrame s) := by
  constructor <;> simp

theorem convHighFirstStep_portTurn (lo hi : Byte) (s : State) :
    State.PortTurn .P 0 s (convHighFirstStep lo hi s) := by
  unfold convHighFirstStep
  split
  · exact pushSample_portTurn _ s
  · constructor <;> simp

theorem instrEffect_portTurn (i : Instr) (s : State) : State.PortTurn (portOf i) 0 s (instrEffect s i) := by
  cases i with
  | push x => exact pushSample_portTurn _ s
  | read k =>
    rcases readResult_cases k s (ringIndex s.cfg s.proc k) with ⟨v, h⟩ | ⟨f, h⟩
    · rw [instrEffect, h]; exact respond_portTurn s v
    · rw [instrEffect, h]; exact raise_portTurn .C s f
  | rdoff => exact respond_portTurn s _
  | rdstat => exact respond_portTurn s _
  | rdsize role => exact respond_portTurn s _
  | release => exact releaseFrame_portTurn s

/-! ### A turn of each agent -/

theorem presentWord_portTurn {p : Port} {w : CmdWord} {s t : State} (h : presentWord p w s = .next t) :
    State.PortTurn p 0 s t := by
  unfold presentWord at h
  split at h
  · cases h
    exact raise_portTurn p s _
  next i hdecode =>
    obtain ⟨-, rfl⟩ := (exec_next_iff i s t).1 h
    rw [← portOf_of_decode hdecode]
    exact instrEffect_portTurn i s

theorem acceptUnlessFaulted_portTurn (p : Port) (s : State) :
    ∃ n ≤ 1, State.PortTurn p n s (s.acceptUnlessFaulted p) := by
  cases hf : s.fault with
  | none => exact ⟨1, le_rfl, acceptUnlessFaulted_live p hf ▸ accept_portTurn p s⟩
  | some f => exact ⟨0, Nat.zero_le 1, (acceptUnlessFaulted_faulted p hf).symm ▸ .refl p s⟩

theorem commandStep_portTurn {p : Port} {w : CmdWord} {s t : State} (h : commandStep p w s = .next t) :
    ∃ n ≤ 1, State.PortTurn p n s t := by
  obtain ⟨u, hu, rfl⟩ := mapNext_next h
  obtain ⟨n, hn, haccept⟩ := acceptUnlessFaulted_portTurn p u
  exact ⟨n, hn, by simpa using (presentWord_portTurn hu).trans haccept⟩

theorem eventStep_portTurn {effect : State → State} {s t : State} (heffect : State.PortTurn .P 0 s (effect s))
    (h : eventStep effect s = .next t) : ∃ n ≤ 1, State.PortTurn .P n s t := by
  unfold eventStep at h
  split at h <;> cases h
  · exact ⟨1, le_rfl, heffect.trans (accept_portTurn .P _)⟩
  · exact ⟨0, Nat.zero_le 1, endTurn_portTurn .P s⟩

theorem producerStep_portTurn {s t : State} (h : producerStep s = .next t) : ∃ n ≤ 1, State.PortTurn .P n s t := by
  unfold producerStep at h
  split at h
  · cases h
    exact ⟨0, Nat.zero_le 1, endTurn_portTurn .P s⟩
  · exact commandStep_portTurn h
  · exact eventStep_portTurn (pushSample_portTurn _ s) h
  · exact eventStep_portTurn (convHighFirstStep_portTurn _ _ s) h

theorem consumerStep_portTurn {s t : State} (h : consumerStep s = .next t) : ∃ n ≤ 1, State.PortTurn .C n s t := by
  have idle : ∃ n ≤ 1, State.PortTurn .C n s s.endTurn := ⟨0, Nat.zero_le 1, endTurn_portTurn .C s⟩
  unfold consumerStep at h
  split at h
  · cases h
    exact idle
  · exact commandStep_portTurn h
  · unfold waitbusyStep at h
    split at h
    · exact commandStep_portTurn h
    · cases h
      exact idle
  · obtain ⟨k, d, hreadc⟩ := readcStep_eq _ s
    obtain ⟨u, hu, rfl⟩ := mapNext_next (hreadc ▸ h)
    obtain ⟨n, hn, hturn⟩ := commandStep_portTurn hu
    exact ⟨n, hn, { hturn with }⟩

/-- The host's turn writes the sampler's fields and the host's own input, and uses up the turn. -/
theorem hostStep_next {s t : State} (h : hostStep s = .next t) :
    t = { s with smp := t.smp, hostIn := t.hostIn, sched := s.sched.tail } := by
  unfold hostStep at h
  split at h
  · cases h
    rfl
  · obtain ⟨u, hu, rfl⟩ := mapNext_next h
    obtain ⟨husmp, -⟩ := hostAction_next hu
    rw [husmp]
    rfl

/-- The inversion lemma of step by agent. -/
theorem step_turn {s t : State} (h : step s = .next t) :
    t = s ∨
      (s.sched.head? = some .producer ∧ ∃ n ≤ 1, State.PortTurn .P n s t) ∨
      (s.sched.head? = some .consumer ∧ ∃ n ≤ 1, State.PortTurn .C n s t) ∨
      (s.sched.head? = some .host ∧ t = { s with smp := t.smp, hostIn := t.hostIn, sched := s.sched.tail }) := by
  obtain ⟨-, hturn⟩ := unlessFaulted_next h
  split at hturn
  · cases hturn
    exact .inl rfl
  next hsched => exact .inr (.inl ⟨by rw [hsched]; rfl, producerStep_portTurn hturn⟩)
  next hsched => exact .inr (.inr (.inl ⟨by rw [hsched]; rfl, consumerStep_portTurn hturn⟩))
  next hsched => exact .inr (.inr (.inr ⟨by rw [hsched]; rfl, hostStep_next hturn⟩))

/-- Settles O25: each clause is read off the turn that the schedule names. -/
theorem stepKeepsConfigAndPositions : Obligations.StepKeepsConfigAndPositions := by
  intro s t hstep
  rcases step_turn hstep with rfl | ⟨hsched, n, hn, hturn⟩ | ⟨hsched, n, hn, hturn⟩ | ⟨hsched, ht⟩
  · exact ⟨rfl, List.prefix_refl _, .inl rfl, .inl rfl, fun _ => rfl, fun _ => ⟨rfl, rfl⟩⟩
  · have hposP : t.posP = s.posP + n := hturn.posP
    refine ⟨hturn.cfg, hturn.responses, ?_, .inl hturn.posC, fun _ => hturn.silent rfl,
      fun _ => ⟨hturn.smp, hturn.hostIn⟩⟩
    rcases Nat.le_one_iff_eq_zero_or_eq_one.1 hn with rfl | rfl
    · exact .inl hposP
    · exact .inr ⟨hposP, hsched⟩
  · have hposC : t.posC = s.posC + n := hturn.posC
    refine ⟨hturn.cfg, hturn.responses, .inl hturn.posP, ?_, fun hne => absurd hsched hne,
      fun _ => ⟨hturn.smp, hturn.hostIn⟩⟩
    rcases Nat.le_one_iff_eq_zero_or_eq_one.1 hn with rfl | rfl
    · exact .inl hposC
    · exact .inr ⟨hposC, hsched⟩
  · rw [ht]
    exact ⟨rfl, List.prefix_refl _, .inl rfl, .inl rfl, fun _ => rfl, fun hne => absurd hsched hne⟩

end Sys2Proof.Machine
end

section
/-!
The ports as two views of one memory (spec/20_memory.md R50, R56, R58): which part of the block the consumer's commands
depend on, so that the reads repeat and capt's storage stays hidden, and that PUSH depends on nothing of proc.
-/

namespace Sys2Proof.Machine

/-! ### Setting a ring, beside the other updates -/

theorem setRing_comm (s : State) (r : RingId) (x y : Ring) :
    (s.setRing r.other y).setRing r x = (s.setRing r x).setRing r.other y := by
  cases r <;> rfl

@[simp] theorem setRing_other_ring (s : State) (r : RingId) (x : Ring) :
    (s.setRing r.other x).ring r = s.ring r := by
  cases r <;> rfl

theorem setRing_respond (s : State) (r : RingId) (x : Ring) (v : Half) :
    (s.setRing r x).respond v = (s.respond v).setRing r x := by
  cases r <;> rfl

theorem setRing_raise (s : State) (r : RingId) (x : Ring) (f : Fault) :
    (s.setRing r x).raise f = (s.raise f).setRing r x := by
  cases r <;> rfl

theorem setRing_promote (s : State) (r : RingId) (x : Ring) :
    (s.setRing r x).promote = s.promote.setRing r x := by
  cases r <;> rfl

/-! ### RELEASE -/

theorem ringClear_of_empty {r : Ring} (h : r.size = 0) : ringClear r = r := by
  rw [ringClear, ← h]

/-- RELEASE clears nothing where proc is empty and busy is 0 already. -/
theorem releaseFrame_of_released {s : State} (hbusy : s.busy = false) (hsize : s.proc.size = 0) :
    releaseFrame s = s := by
  rw [releaseFrame, ringClear_of_empty hsize, State.proc, setRing_self, ← hbusy]

theorem releaseFrame_proc (s : State) : (releaseFrame s).proc = ringClear s.proc := by
  simp [State.proc, State.procId]

theorem releaseFrame_releaseFrame (s : State) : releaseFrame (releaseFrame s) = releaseFrame s :=
  releaseFrame_of_released (releaseFrame_busy s) (by rw [releaseFrame_proc, ringClear])

/-- RELEASE neither reads nor writes capt. -/
theorem releaseFrame_setRing_capt (s : State) (r : Ring) :
    releaseFrame (s.setRing s.sel r) = (releaseFrame s).setRing s.sel r := by
  cases s with | mk _ _ _ sel => cases sel <;> rfl

/-- Settles O17: RELEASE changes nothing where it finds busy at 0 and proc empty, and leaves both so. -/
theorem releaseIdempotent : Obligations.ReleaseIdempotent := by
  intro s t hexec
  obtain ⟨hf, rfl⟩ := (exec_next_iff _ s t).1 hexec
  refine ⟨(exec_next_iff _ _ _).2 ⟨?_, (releaseFrame_releaseFrame s).symm⟩, fun hcount hbusy => ?_⟩
  · exact (releaseFrame_fault s).trans hf
  · have hsize : s.proc.size = 0 := BitVec.eq_of_toNat_eq (hcount.trans (by simp [hbusy]))
    exact releaseFrame_of_released hbusy hsize

/-! ### The reads -/

/-- s and t look the same to the four reads: proc whole, and of capt its count alone. -/
structure State.SameView (s t : State) : Prop where
  cfg : t.cfg = s.cfg
  sel : t.sel = s.sel
  busy : t.busy = s.busy
  proc : t.proc = s.proc
  captSize : t.capt.size = s.capt.size

theorem State.SameView.refl (s : State) : s.SameView s := ⟨rfl, rfl, rfl, rfl, rfl⟩

theorem respond_sameView (s : State) (v : Half) : s.SameView (s.respond v) :=
  ⟨rfl, rfl, rfl, respond_ring s v _, congrArg Ring.size (respond_ring s v _)⟩

/-- The storage of capt is no part of what the reads see. -/
theorem setCaptStorage_sameView (s : State) (m : Memory) :
    s.SameView (s.setRing s.sel { s.capt with mem := m }) := by
  constructor <;> simp [State.proc, State.procId, State.capt]

theorem State.SameView.stat {s t : State} (h : s.SameView t) : t.stat = s.stat := by
  simp only [State.stat, State.captFull, ringFull, h.cfg, h.sel, h.busy, h.captSize]

theorem State.SameView.roleSize {s t : State} (h : s.SameView t) (role : Role) :
    (t.ringOfRole role).size = (s.ringOfRole role).size := by
  cases role with
  | capt => exact h.captSize
  | proc => exact congrArg Ring.size h.proc

/-- The four reads are functions of what they see: one value answered, or one fault marked, in every state that looks
like s to them. -/
theorem instrEffect_of_sameView (s : State) (i : Instr) (hpush : ∀ x, i ≠ .push x) (hrelease : i ≠ .release) :
    (∃ v, ∀ t, s.SameView t → instrEffect t i = t.respond v) ∨
      ∃ f, ∀ t, s.SameView t → instrEffect t i = t.raise f := by
  cases i with
  | push x => exact absurd rfl (hpush x)
  | read k =>
    have hread : ∀ t, s.SameView t → instrEffect t (.read k) = readResult k t (ringIndex s.cfg s.proc k) :=
      fun t h => by rw [instrEffect, h.cfg, h.proc]
    cases ha : ringIndex s.cfg s.proc k with
    | ok v => exact .inl ⟨v, fun t h => by rw [hread t h, ha, readResult]⟩
    | error e =>
      cases e with
      | range => exact .inr ⟨_, fun t h => by rw [hread t h, ha, readResult]⟩
      | unwritten =>
        exact .inr ⟨.unwrittenRead (encode (.read k)) s.procId k, fun t h => by
          rw [hread t h, ha, readResult, State.procId, h.sel, State.procId]⟩
  | rdoff => exact .inl ⟨s.proc.i, fun t h => by rw [instrEffect, h.proc]⟩
  | rdstat => exact .inl ⟨s.stat, fun t h => by rw [instrEffect, h.stat]⟩
  | rdsize role => exact .inl ⟨(s.ringOfRole role).size, fun t h => by rw [instrEffect, h.roleSize]⟩
  | release => exact absurd rfl hrelease

/-- Settles O18: a read answers a value or marks a fault; an answer is no part of what the next read sees. -/
theorem readsHaveNoSideEffect : Obligations.ReadsHaveNoSideEffect := by
  intro i s t hpush hrelease hexec
  obtain ⟨hf, rfl⟩ := (exec_next_iff i s t).1 hexec
  rcases instrEffect_of_sameView s i hpush hrelease with ⟨v, hv⟩ | ⟨f, hmark⟩
  · rw [hv s (.refl s)]
    refine ⟨rfl, fun hne => absurd hf hne, fun _ => ⟨v, rfl, ?_⟩⟩
    exact (exec_next_iff i _ _).2 ⟨hf, (hv _ (respond_sameView s v)).symm⟩
  · rw [hmark s (.refl s)]
    exact ⟨rfl, fun _ => rfl, fun hnone => by simp at hnone⟩

/-! ### What each port cannot see of the other's ring -/

theorem State.SameBlock.capt {s t : State} (h : s.SameBlock t) : s.capt = t.capt := by
  rw [State.capt, State.capt, h.sel, h.ring]

theorem State.SameBlock.proc {s t : State} (h : s.SameBlock t) : s.proc = t.proc := by
  rw [State.proc, State.proc, State.procId, State.procId, h.sel, h.ring]

/-- A consumer command runs alike whatever capt's storage is. -/
theorem instrEffect_setCaptStorage (s : State) (i : Instr) (hpush : ∀ x, i ≠ .push x) (m : Memory) :
    instrEffect (s.setRing s.sel { s.capt with mem := m }) i =
      (instrEffect s i).setRing s.sel { s.capt with mem := m } := by
  by_cases hrelease : i = .release
  · subst hrelease
    exact releaseFrame_setRing_capt s _
  · rcases instrEffect_of_sameView s i hpush hrelease with ⟨v, hv⟩ | ⟨f, hmark⟩
    · rw [hv _ (setCaptStorage_sameView s m), hv s (.refl s), setRing_respond]
    · rw [hmark _ (setCaptStorage_sameView s m), hmark s (.refl s), setRing_raise]

/-- A consumer command keeps the roles and capt. -/
theorem instrEffect_capt (s : State) (i : Instr) (hpush : ∀ x, i ≠ .push x) :
    (instrEffect s i).sel = s.sel ∧ (instrEffect s i).capt = s.capt := by
  by_cases hrelease : i = .release
  · subst hrelease
    exact ⟨releaseFrame_sel s, by simp [instrEffect, State.capt]⟩
  · have hsame := instrEffect_sameBlock s i hpush hrelease
    exact ⟨hsame.sel, hsame.capt⟩

/-- Settles O19: the reads see no storage of capt, and RELEASE touches proc and busy alone. -/
theorem captStorageHiddenFromConsumer : Obligations.CaptStorageHiddenFromConsumer := by
  intro i s t m hpush hexec
  obtain ⟨hf, rfl⟩ := (exec_next_iff i s t).1 hexec
  obtain ⟨hsel, hcapt⟩ := instrEffect_capt s i hpush
  refine ⟨hsel, hcapt, (exec_next_iff i _ _).2 ⟨?_, (instrEffect_setCaptStorage s i hpush m).symm⟩⟩
  rw [setRing_fault, hf]

/-- A sample is written, and promotion decided, alike whatever ring is proc. -/
theorem pushSample_setRing_proc (x : Half) (s : State) (r : Ring) :
    pushSample x (s.setRing s.sel.other r) = (pushSample x s).setRing s.sel.other r := by
  have hcapt : (s.setRing s.sel.other r).capt = s.capt := by simp [State.capt]
  simp only [pushSample_def, hcapt, setRing_busy, setRing_cfg, setRing_sel, setRing_comm]
  split
  · rw [setRing_promote]
  · rfl

/-- Settles O20: the write goes to capt, and the promotion test reads busy and capt's count. -/
theorem procHiddenFromProducer : Obligations.ProcHiddenFromProducer := by
  intro s t x r hexec
  obtain ⟨hf, rfl⟩ := (exec_next_iff _ s t).1 hexec
  refine (exec_next_iff _ _ _).2 ⟨by rw [setRing_fault, hf], ?_⟩
  rw [instrEffect, instrEffect, setRing_cfg, pushSample_setRing_proc]

end Sys2Proof.Machine
end

section
/-!
The frame while it is being drained (spec/20_memory.md R61): what each way a step acts on the block does to proc while
busy is 1.
-/

namespace Sys2Proof.Machine

/-- While busy is 1 a sample does not promote: the roles, busy and proc stay (spec/41_producer.md R130). -/
theorem pushSample_of_busy (x : Half) {s : State} (h : s.busy = true) :
    (pushSample x s).sel = s.sel ∧ (pushSample x s).busy = true ∧ (pushSample x s).proc = s.proc := by
  have hsel : (pushSample x s).sel = s.sel := by simp [pushSample_sel, h]
  refine ⟨hsel, by simp [pushSample_busy, h], ?_⟩
  rw [State.proc, State.procId, hsel, pushSample_ring_proc, State.proc, State.procId]

/-- A step while busy is 1 leaves roles, busy and proc as they are, or is the consumer's release. -/
theorem step_of_busy {s t : State} (hbusy : s.busy = true) (h : step s = .next t) :
    t.sel = s.sel ∧
      ((t.busy = true ∧ t.proc = s.proc) ∨
        (t.busy = false ∧ s.sched.head? = some .consumer ∧ t.proc = ringClear s.proc)) := by
  obtain ⟨-, hsame | ⟨-, x, -, hpush⟩ | ⟨hturn, hrelease⟩ | ⟨-, a, u, hact, hhost⟩⟩ := step_block h
  · exact ⟨hsame.sel, .inl ⟨hsame.busy.trans hbusy, hsame.proc⟩⟩
  · obtain ⟨hsel, hbusy', hproc⟩ := pushSample_of_busy x hbusy
    exact ⟨hpush.sel.trans hsel, .inl ⟨hpush.busy.trans hbusy', hpush.proc.trans hproc⟩⟩
  · exact ⟨hrelease.sel.trans (releaseFrame_sel s), .inr ⟨hrelease.busy.trans (releaseFrame_busy s), hturn,
      hrelease.proc.trans (releaseFrame_proc s)⟩⟩
  · obtain ⟨hu, -⟩ := hostAction_next hact
    rw [hu] at hhost
    exact ⟨hhost.sel, .inl ⟨hhost.busy.trans hbusy, hhost.proc⟩⟩

/-- Settles O33: a release clears the count of proc and nothing else of it (spec/40_ring.md R103). -/
theorem frameStableWhileBusy : Obligations.FrameStableWhileBusy := by
  intro s t hbusy hstep
  obtain ⟨hsel, ⟨hkeep, hproc⟩ | ⟨hfall, hturn, hproc⟩⟩ := step_of_busy hbusy hstep
  · exact ⟨hsel, by rw [hproc], by rw [hproc], fun _ => hproc, by simp [hkeep]⟩
  · refine ⟨hsel, ?_, ?_, by simp [hfall], fun _ => ⟨hturn, ?_⟩⟩ <;> rw [hproc, ringClear]

end Sys2Proof.Machine
end

section
/-!
A turn, forward (spec/20_memory.md R59): which of the agents' steps `step` is, a command's step through decode and exec,
and a turn with nothing to do.
-/

namespace Sys2Proof.Machine

/-! ### The agent whose turn it is -/

/-- The step an agent takes on its turn. -/
def turnOf : Agent → State → Result
  | .producer => producerStep
  | .consumer => consumerStep
  | .host => hostStep

theorem step_eq_turnOf {s : State} {a : Agent} (hf : s.fault = none) (h : s.sched.head? = some a) :
    step s = turnOf a s := by
  obtain ⟨rest, hsched⟩ := List.head?_eq_some_iff.1 h
  rw [step, agentStep, unlessFaulted_live hf, hsched]
  cases a <;> rfl

/-! ### A command's turn -/

/-- A fault-free step on a port's turn, with a word at the head of that port's input, is that word's step. -/
theorem step_eq_commandStep {s : State} {p : Port} {w : CmdWord} (hf : s.fault = none)
    (hturn : s.sched.head? = some (agentOfPort p)) (hP : p = .P → s.prodIn.head? = some (.word w))
    (hC : p = .C → s.consIn.head? = some (.word w)) : step s = commandStep p w s := by
  rw [step_eq_turnOf hf hturn]
  cases p with
  | P =>
    obtain ⟨ins, hin⟩ := List.head?_eq_some_iff.1 (hP rfl)
    simp only [agentOfPort, turnOf, producerStep, hin]
  | C =>
    obtain ⟨ins, hin⟩ := List.head?_eq_some_iff.1 (hC rfl)
    simp only [agentOfPort, turnOf, consumerStep, hin]

/-- The step of a word that decodes to i is exec of i, accepted unless it faults. -/
theorem commandStep_decoded {s t : State} {p : Port} {w : CmdWord} {i : Instr} (hdecode : decode s.cfg p w = .ok i)
    (hexec : exec i s = .next t) : commandStep p w s = .next (t.acceptUnlessFaulted p) := by
  simp only [commandStep, presentWord, hdecode, hexec, mapNext]

theorem pushSample_frame (x : Half) (s : State) :
    pushSample x s = { s with
      ping := (pushSample x s).ping, pong := (pushSample x s).pong, sel := (pushSample x s).sel,
      busy := (pushSample x s).busy } := by
  rw [pushSample_def]
  split <;> cases s with | mk _ _ _ sel => cases sel <;> rfl

theorem releaseFrame_frame (s : State) :
    releaseFrame s = { s with
      ping := (releaseFrame s).ping, pong := (releaseFrame s).pong, busy := (releaseFrame s).busy } := by
  cases s with | mk _ _ _ sel => cases sel <;> rfl

/-- The frame of the six commands: they write the rings, the roles, busy, the responses and the fault mark alone. -/
theorem instrEffect_frame (s : State) (i : Instr) :
    instrEffect s i = { s with
      ping := (instrEffect s i).ping, pong := (instrEffect s i).pong, sel := (instrEffect s i).sel,
      busy := (instrEffect s i).busy, responses := (instrEffect s i).responses,
      fault := (instrEffect s i).fault } := by
  cases i with
  | push x => rw [instrEffect, pushSample_frame]
  | read k =>
    rcases readResult_cases k s (ringIndex s.cfg s.proc k) with ⟨v, h⟩ | ⟨f, h⟩ <;> rw [instrEffect, h] <;> rfl
  | rdoff => rfl
  | rdstat => rfl
  | rdsize role => rfl
  | release => rw [instrEffect, releaseFrame_frame]

/-- Settles O23: the word's step is exec of its command, which touches neither inputs, schedule nor positions; the
acceptance alone does. -/
theorem stepRunsDecodedCommand : Obligations.StepRunsDecodedCommand := by
  intro s t p w i hf hturn hP hC hdecode hexec
  have hstep : step s = .next (t.acceptUnlessFaulted p) :=
    (step_eq_commandStep hf hturn hP hC).trans (commandStep_decoded hdecode hexec)
  obtain ⟨-, ht⟩ := (exec_next_iff i s t).1 hexec
  refine ⟨fun hlive => ?_, fun hmark => ?_⟩
  · rw [hstep, acceptUnlessFaulted_live p hlive, ht, instrEffect_frame]
    cases p <;> rfl
  · obtain ⟨f, hfault⟩ := Option.ne_none_iff_exists'.1 hmark
    rw [hstep, acceptUnlessFaulted_faulted p hfault]

/-! ### An idle turn -/

theorem producerStep_idle {s : State} (h : s.prodIn = []) : producerStep s = .next s.endTurn := by
  simp only [producerStep, h]

theorem consumerStep_idle {s : State} (h : s.consIn = []) : consumerStep s = .next s.endTurn := by
  simp only [consumerStep, h]

theorem hostStep_idle {s : State} (h : s.hostIn = []) : hostStep s = .next s.endTurn := by
  simp only [hostStep, h]

/-- Settles O24: an empty schedule names no agent, and an agent with no input ends its turn. -/
theorem idleTurnChangesNothing : Obligations.IdleTurnChangesNothing := by
  intro s hf
  refine ⟨fun hsched => ?_, ?_⟩
  · rw [step, agentStep, unlessFaulted_live hf, hsched]
  · rintro (⟨hturn, hin⟩ | ⟨hturn, hin⟩ | ⟨hturn, hin⟩)
    · exact (step_eq_turnOf hf hturn).trans (producerStep_idle hin)
    · exact (step_eq_turnOf hf hturn).trans (consumerStep_idle hin)
    · exact (step_eq_turnOf hf hturn).trans (hostStep_idle hin)

end Sys2Proof.Machine
end

section
/-!
Encoding and decoding (spec/30_encoding.md R71 to R75, R81). A word is its three fields; decode answers a command exactly
where the fields are those of the command's word and the command is well formed.
-/

namespace Sys2Proof

open Machine

/-! ### The fields of a word -/

theorem opField_toNat (w : CmdWord) : (opField w).toNat = w.toNat / 2 ^ 28 := by
  have := w.isLt
  simp only [opField, BitVec.extractLsb'_toNat, Nat.shiftRight_eq_div_pow]
  omega

theorem rsvField_toNat (w : CmdWord) : (rsvField w).toNat = w.toNat / 2 ^ 16 % 2 ^ 12 := by
  simp only [rsvField, BitVec.extractLsb'_toNat, Nat.shiftRight_eq_div_pow]

theorem immField_toNat (w : CmdWord) : (immField w).toNat = w.toNat % 2 ^ 16 := by
  simp only [immField, BitVec.extractLsb'_toNat, Nat.shiftRight_zero]

/-- A word whose reserved field is zero is its opcode and its operand. -/
theorem eq_of_rsvField_eq_zero {w : CmdWord} (h : rsvField w = 0) : w = opField w ++ 0#12 ++ immField w := by
  have hrsv : (rsvField w).toNat = 0 := by rw [h]; rfl
  rw [rsvField_toNat] at hrsv
  apply BitVec.eq_of_toNat_eq
  rw [Laws.Format.word_toNat, opField_toNat, immField_toNat]
  omega

/-! ### The opcode -/

/-- The number of an opcode (spec/30_encoding.md R73). -/
def Opcode.number : Opcode → Nat
  | .push => 1
  | .read => 2
  | .rdoff => 3
  | .rdstat => 4
  | .rdsize => 5
  | .release => 6

/-- The opcode of a command by name (spec/30_encoding.md R73). -/
def Instr.kind : Instr → Opcode
  | .push _ => .push
  | .read _ => .read
  | .rdoff => .rdoff
  | .rdstat => .rdstat
  | .rdsize _ => .rdsize
  | .release => .release

theorem opcode_toNat (i : Instr) : (opcode i).toNat = i.kind.number := by cases i <;> rfl

theorem portOfOpcode_kind (i : Instr) : portOfOpcode i.kind = portOf i := by cases i <;> rfl

theorem opcodeOf_eq_some_iff {op : BitVec 4} {o : Opcode} : opcodeOf op = some o ↔ op.toNat = o.number := by
  constructor
  · intro h
    unfold opcodeOf at h
    split at h <;> cases h <;> assumption
  · intro h
    cases o <;> simp only [opcodeOf, h, Opcode.number]

theorem opcodeOf_eq_none_iff {op : BitVec 4} : opcodeOf op = none ↔ op.toNat = 0 ∨ 7 ≤ op.toNat := by
  unfold opcodeOf
  split <;> simp only [reduceCtorEq, true_iff, false_iff, imp_false] at * <;> omega

/-! ### The operand -/

theorem sampleFits_iff {c : Config} {x : Half} : sampleFits c x = true ↔ ¬(unitWidth c = 8 ∧ 2 ^ 8 ≤ x.toNat) := by
  have := x.isLt
  rcases unitWidth_cases c with h | h
  · simp [sampleFits, h]
  · simp [sampleFits, h]
    omega

/-- The upper bits of an operand, from bit k on, are zero exactly where its value is below 2 ^ k. -/
theorem extractLsb'_ne_zero_iff {imm : Half} {k n : Nat} (h : k + n = 16) :
    imm.extractLsb' k n ≠ 0 ↔ 2 ^ k ≤ imm.toNat := by
  have hlt : imm.toNat / 2 ^ k < 2 ^ n := Nat.div_lt_of_lt_mul (by rw [← pow_add, h]; exact imm.isLt)
  rw [ne_eq, ← BitVec.toNat_inj, BitVec.extractLsb'_toNat, Nat.shiftRight_eq_div_pow, Nat.mod_eq_of_lt hlt,
    BitVec.ofNat_eq_ofNat, BitVec.toNat_zero, Nat.div_eq_zero_iff_lt (Nat.two_pow_pos k), not_lt]

theorem decodeOperand_push (c : Config) (imm : Half) :
    decodeOperand c .push imm =
      if unitWidth c = 8 ∧ 2 ^ 8 ≤ imm.toNat then .error .reservedBits else .ok (.push imm) := by
  simp only [decodeOperand, extractLsb'_ne_zero_iff (show 8 + 8 = 16 from rfl)]

theorem decodeOperand_rdsize (c : Config) (imm : Half) :
    decodeOperand c .rdsize imm =
      if 2 ≤ imm.toNat then .error .reservedBits else .ok (.rdsize (if imm.toNat = 1 then .proc else .capt)) := by
  simp only [decodeOperand, extractLsb'_ne_zero_iff (show 1 + 15 = 16 from rfl), pow_one]
  split
  · rfl
  · have hbit : imm.getLsbD 0 = true ↔ imm.toNat = 1 := by
      rw [BitVec.getLsbD, Nat.testBit_zero, decide_eq_true_eq]
      omega
    simp only [hbit]

/-- The operand check of R75 answers a command exactly where the operand is that command's and the command is well
formed. -/
theorem decodeOperand_eq_ok_iff {c : Config} {o : Opcode} {imm : Half} {i : Instr} :
    decodeOperand c o imm = .ok i ↔ o = i.kind ∧ imm = immOf i ∧ i.wellFormed c = true := by
  constructor
  · intro h
    cases o with
    | push =>
      rw [decodeOperand_push] at h
      split at h <;> cases h
      next hfits => exact ⟨rfl, rfl, sampleFits_iff.2 hfits⟩
    | read => cases h; exact ⟨rfl, rfl, rfl⟩
    | rdsize =>
      rw [decodeOperand_rdsize] at h
      split at h <;> cases h
      next hbit =>
        refine ⟨rfl, BitVec.eq_of_toNat_eq ?_, rfl⟩
        split <;> simp [immOf] <;> omega
    | rdoff | rdstat | release =>
      simp only [decodeOperand] at h
      split at h <;> cases h
      next himm => exact ⟨rfl, not_not.1 himm, rfl⟩
  · rintro ⟨rfl, rfl, hwf⟩
    cases i with
    | push x => exact (decodeOperand_push c x).trans (if_neg (sampleFits_iff.1 hwf))
    | rdsize role => cases role <;> rfl
    | read | rdoff | rdstat | release => rfl

/-! ### Decode and encode -/

theorem decode_of_reserved {c : Config} {p : Port} {w : CmdWord} (h : opcodeOf (opField w) = none) :
    decode c p w = .error .illegalOp := by
  simp only [decode, h]

theorem decode_of_opcode {c : Config} {p : Port} {w : CmdWord} {o : Opcode} (h : opcodeOf (opField w) = some o) :
    decode c p w =
      if portOfOpcode o ≠ p then .error .wrongPort
      else if rsvField w ≠ 0 then .error .reservedBits
      else decodeOperand c o (immField w) := by
  simp only [decode, h]

/-- A command's word passes every check before its operand's. -/
theorem decode_encode (c : Config) (i : Instr) :
    decode c (portOf i) (encode i) = decodeOperand c i.kind (immOf i) := by
  obtain ⟨hop, hrsv, himm⟩ := Laws.Format.fields (opcode i) (immOf i)
  have ho : opcodeOf (opField (encode i)) = some i.kind :=
    opcodeOf_eq_some_iff.2 ((congrArg BitVec.toNat hop).trans (opcode_toNat i))
  rw [decode_of_opcode ho, portOfOpcode_kind, encode, hrsv, himm, if_neg (not_not.2 rfl), if_neg (not_not.2 rfl)]

/-- The checks that a decoded word passes fix its three fields. -/
theorem fields_of_decode {c : Config} {p : Port} {w : CmdWord} {i : Instr} (h : decode c p w = .ok i) :
    opField w = opcode i ∧ rsvField w = 0 ∧ immField w = immOf i ∧ i.wellFormed c = true := by
  cases ho : opcodeOf (opField w) with
  | none => rw [decode_of_reserved ho] at h; cases h
  | some o =>
    rw [decode_of_opcode ho] at h
    split at h
    · cases h
    split at h
    · cases h
    next hrsv =>
      obtain ⟨rfl, himm, hwf⟩ := decodeOperand_eq_ok_iff.1 h
      have hop : opField w = opcode i :=
        BitVec.eq_of_toNat_eq ((opcodeOf_eq_some_iff.1 ho).trans (opcode_toNat i).symm)
      exact ⟨hop, not_not.1 hrsv, himm, hwf⟩

/-- Settles O1: past the earlier checks, the operand of a well-formed command passes its own. -/
theorem decodeOfEncode : Obligations.DecodeOfEncode := fun c i hwf =>
  (decode_encode c i).trans (decodeOperand_eq_ok_iff.2 ⟨rfl, rfl, hwf⟩)

/-- Settles O2: the fields that decode has fixed are the word. -/
theorem encodeOfDecode : Obligations.EncodeOfDecode := by
  intro c p w i h
  obtain ⟨hop, hrsv, himm, hwf⟩ := fields_of_decode h
  refine ⟨(portOf_of_decode h).symm, ?_, hwf⟩
  calc w = opField w ++ 0#12 ++ immField w := eq_of_rsvField_eq_zero hrsv
    _ = encode i := by rw [hop, himm, encode]

/-! ### The checks in numbers -/

theorem presentWord_of_error {p : Port} {w : CmdWord} {s : State} {e : DecodeError} (hf : s.fault = none)
    (h : decode s.cfg p w = .error e) :
    presentWord p w s = .next { s with fault := some (faultOfDecode p w e) } := by
  simp only [presentWord, h, State.raise, hf, Option.none_or]

/-- Settles O3: the opcode map is inverted first; each opcode then leaves one branch of the chain. -/
theorem decodeChecksInOrder : Obligations.DecodeChecksInOrder := by
  intro c p w
  refine ⟨?_, fun s e => presentWord_of_error⟩
  dsimp only
  rw [← opField_toNat, ← rsvField_toNat, ← immField_toNat]
  cases ho : opcodeOf (opField w) with
  | none => rw [decode_of_reserved ho, if_pos (opcodeOf_eq_none_iff.1 ho)]
  | some o =>
    have hreserved : ¬((opField w).toNat = 0 ∨ 7 ≤ (opField w).toNat) := by
      rw [← opcodeOf_eq_none_iff, ho]; exact Option.some_ne_none o
    rw [decode_of_opcode ho, if_neg hreserved, opcodeOf_eq_some_iff.1 ho]
    refine if_congr (ne_comm.trans (by cases o <;> rfl)) rfl (if_congr BitVec.toNat_ne rfl ?_)
    cases o with
    | push => simp [decodeOperand_push, Opcode.number]
    | rdsize => exact decodeOperand_rdsize c (immField w)
    | read => simp [decodeOperand, Opcode.number]
    | rdoff | rdstat | release => simp [decodeOperand, Opcode.number, ← BitVec.toNat_inj]

/-! ### The table of R81 -/

theorem encode_decode_of_word {c : Config} {i : Instr} {w : CmdWord} (hw : encode i = w) (hwf : i.wellFormed c = true) :
    encode i = w ∧ decode c (portOf i) w = .ok i :=
  ⟨hw, hw ▸ decodeOfEncode c i hwf⟩

/-- Settles O4: each row is the word of a well-formed command, but for the sample that does not fit 8 bits. -/
theorem wordsOfTheEncodingTable : Obligations.WordsOfTheEncodingTable := by
  intro c
  refine ⟨fun hU => encode_decode_of_word rfl ?_, fun hU => encode_decode_of_word rfl ?_, fun hU => ?_,
    encode_decode_of_word rfl rfl, encode_decode_of_word rfl rfl, encode_decode_of_word rfl rfl,
    encode_decode_of_word rfl rfl, encode_decode_of_word rfl rfl, encode_decode_of_word rfl rfl⟩
  · exact sampleFits_iff.2 (by simp)
  · exact sampleFits_iff.2 (by simp [hU])
  · have hwide : unitWidth c = 8 ∧ 2 ^ 8 ≤ (0x1FF : Half).toNat := ⟨hU, by decide⟩
    exact ⟨Bool.eq_false_iff.2 fun hfits => sampleFits_iff.1 hfits hwide,
      (decode_encode c (.push 0x1FF)).trans ((decodeOperand_push c _).trans (if_pos hwide))⟩

end Sys2Proof
end

section
/-!
A ring after a run of writes (spec/40_ring.md R108, R109): its index and its count follow from the number of writes
alone, and write number k stores its sample at slot (i0 + k) mod N, where it stands until N further writes have been
made.
-/

namespace Sys2Proof.Machine

/-! ### Index and count -/

theorem ringWrites_concat (c : Config) (r : Ring) (xs : List Half) (x : Half) :
    ringWrites c r (xs ++ [x]) = ringWrite c (ringWrites c r xs) x := by
  induction xs generalizing r with
  | nil => rfl
  | cons y ys ih => exact ih (ringWrite c r y)

theorem ringWrites_i (c : Config) {r : Ring} (xs : List Half) (hi : r.i.toNat < c.bufSize) :
    (ringWrites c r xs).i.toNat = (r.i.toNat + xs.length) % c.bufSize := by
  induction xs using List.reverseRecOn with
  | nil => exact (Nat.mod_eq_of_lt hi).symm
  | append_singleton xs x ih =>
    have hlt : (ringWrites c r xs).i.toNat < c.bufSize := ih ▸ Nat.mod_lt _ c.bufSize_pos
    rw [ringWrites_concat, ringWrite_i _ _ _ hlt, ih, Nat.mod_add_mod, List.length_append, List.length_singleton,
      Nat.add_assoc]

theorem ringWrites_size (c : Config) {r : Ring} (xs : List Half) (hs : r.size.toNat ≤ c.bufSize) :
    (ringWrites c r xs).size.toNat = min (r.size.toNat + xs.length) c.bufSize := by
  induction xs using List.reverseRecOn with
  | nil => exact (Nat.min_eq_left hs).symm
  | append_singleton xs x ih =>
    have hle : (ringWrites c r xs).size.toNat ≤ c.bufSize := ih ▸ Nat.min_le_right _ _
    rw [ringWrites_concat, ringWrite_size _ _ _ hle, ih, List.length_append, List.length_singleton]
    omega

theorem ringWrites_size_of_empty (c : Config) {r : Ring} (xs : List Half) (h : r.size = 0) :
    (ringWrites c r xs).size.toNat = min xs.length c.bufSize := by
  rw [ringWrites_size c xs (by simp [h])]
  simp [h]

theorem ringFull_ringWrites_of_empty (c : Config) {r : Ring} (xs : List Half) (h : r.size = 0) :
    ringFull c (ringWrites c r xs) = true ↔ c.bufSize ≤ xs.length := by
  rw [ringFull, beq_iff_eq, ringWrites_size_of_empty c xs h, min_eq_right_iff]

/-- Writes fewer than N apart go to different slots. -/
theorem slot_injective {n i a b : Nat} (h : (i + a) % n = (i + b) % n) (hab : a < b + n) (hba : b < a + n) : a = b := by
  have hmod : a ≡ b [MOD n] := Nat.ModEq.add_left_cancel' i h
  exact hmod.eq_of_abs_lt (abs_lt.2 (by omega))

/-- Settles O36: the index and the count are those of `ringWrites_i` and `ringWrites_size`; a clear keeps the index, so
that the write going to slot k is the one number by which k lies ahead of it. -/
theorem countLaws : Obligations.CountLaws := by
  refine ⟨fun c r xs hi hs => ⟨ringWrites_i c xs hi, ringWrites_size c xs hs⟩,
    fun c xs => ⟨ringWrites_size_of_empty c xs rfl, ringFull_ringWrites_of_empty c xs rfl⟩, fun c r k hi hk => ?_⟩
  have hindex (xs : List Half) : (ringWrites c (ringClear r) xs).i.toNat = (r.i.toNat + xs.length) % c.bufSize :=
    ringWrites_i (r := ringClear r) c xs hi
  obtain ⟨d, hd, hslot⟩ := exists_slot_behind hi hk
  refine ⟨c.bufSize - (d + 1), by omega, fun xs hxs => by rw [hindex, hxs, hslot], fun j hj hall => ?_⟩
  have hj_slot : (r.i.toNat + j) % c.bufSize = k := by
    simpa [hindex] using hall (List.replicate j 0) List.length_replicate
  exact slot_injective (hj_slot.trans hslot.symm) (by omega) (by omega)

/-! ### Order -/

/-- Write number k stands at slot (i0 + k) mod N as long as it is one of the last N. -/
theorem ringWrites_read (c : Config) {r : Ring} (xs : List Half) (hi : r.i.toNat < c.bufSize) {k : Nat}
    (hk : k < xs.length) (hlast : xs.length ≤ k + c.bufSize) :
    (ringWrites c r xs).mem.read ((r.i.toNat + k) % c.bufSize) = some xs[k] := by
  induction xs using List.reverseRecOn with
  | nil => exact absurd hk (Nat.not_lt_zero k)
  | append_singleton xs x ih =>
    have hindex := ringWrites_i c xs hi
    rw [List.length_append, List.length_singleton] at hk hlast
    rw [ringWrites_concat]
    by_cases hnew : k = xs.length
    · subst hnew
      rw [← hindex, ringWrite_read_index, List.getElem_concat_length rfl]
    · have hold : k < xs.length := by omega
      have hslot : (r.i.toNat + k) % c.bufSize ≠ (ringWrites c r xs).i.toNat := fun h =>
        hnew (slot_injective (h.trans hindex) (by omega) (by omega))
      rw [ringWrite_read_ne c _ x hslot, ih hold (by omega), List.getElem_append_left hold]

theorem ringWrites_holdsInOrder (c : Config) {r : Ring} (xs : List Half) (hi : r.i.toNat < c.bufSize)
    (hlen : c.bufSize ≤ xs.length) : (ringWrites c r xs).holdsInOrder c (xs.drop (xs.length - c.bufSize)) := by
  intro j hj
  rw [List.length_drop] at hj
  have hslot : ((ringWrites c r xs).i.toNat + j) % c.bufSize =
      (r.i.toNat + (xs.length - c.bufSize + j)) % c.bufSize := by
    rw [ringWrites_i c xs hi, Nat.mod_add_mod, ← Nat.add_mod_right (r.i.toNat + _)]
    congr 1
    omega
  rw [hslot, ringWrites_read c xs hi (by omega) (by omega), List.getElem_drop]

/-- Settles O37: an empty ring that the writes fill has seen at least N of them, so both clauses are about the last N
of N or more writes. -/
theorem orderLaw : Obligations.OrderLaw := fun c _ xs hi =>
  ⟨fun hempty hfull => ringWrites_holdsInOrder c xs hi ((ringFull_ringWrites_of_empty c xs hempty).1 hfull),
    ringWrites_holdsInOrder c xs hi⟩

end Sys2Proof.Machine
end

section
/-!
One PUSH (spec/41_producer.md R130, R134): what it stores, when it promotes, what it leaves unchanged; and a conversion
as a PUSH of the acquired sample (R135, spec/42_sampler.md R164).
-/

namespace Sys2Proof.Machine

/-! ### The sample and the write -/

/-- The operand is IMM[U-1:0] (spec/30_encoding.md R74). -/
theorem pushOperand_eq (c : Config) (x : Half) : pushOperand c x = BitVec.ofNat 16 (x.toNat % 2 ^ unitWidth c) := by
  have hx := x.isLt
  apply BitVec.eq_of_toNat_eq
  rcases unitWidth_cases c with h | h
  · simp only [pushOperand, h, if_true, BitVec.toNat_setWidth, BitVec.extractLsb'_toNat, BitVec.toNat_ofNat]
    omega
  · simp only [pushOperand, h, Nat.reduceEqDiff, if_false, BitVec.toNat_ofNat]
    omega

theorem capt_bounds {s : State} (h : s.RingsOk) :
    s.capt.i.toNat < s.cfg.bufSize ∧ s.capt.size.toNat ≤ s.cfg.bufSize := by
  obtain ⟨hi, hsize, -⟩ := (Ring.ok_iff _ _).1 ((ringsOk_iff s).1 h s.sel)
  exact ⟨hi, hsize⟩

/-- A write leaves a ring full exactly where it raises the count to N or finds it there. -/
theorem ringFull_ringWrite (c : Config) (r : Ring) (x : Half) (h : r.size.toNat ≤ c.bufSize) :
    ringFull c (ringWrite c r x) = decide (c.bufSize ≤ r.size.toNat + 1) := by
  rw [ringFull, ringWrite_size c r x h, Bool.eq_iff_iff, beq_iff_eq, decide_eq_true_iff, min_eq_right_iff]

/-- Settles O8: the write is that of RingWrite on capt, and promotion asks for busy at 0 and the ring full after it. -/
theorem pushStoresAndPromotes : Obligations.PushStoresAndPromotes := by
  intro s x hf hok
  obtain ⟨hi, hsize⟩ := capt_bounds hok
  have hfull := ringFull_ringWrite s.cfg s.capt (pushOperand s.cfg x) hsize
  refine ⟨_, exec_live _ hf, ?_, ?_, ?_, ?_, ?_⟩ <;> rw [instrEffect]
  · rw [pushSample_ring_capt, ← pushOperand_eq]
    exact ringWrite_read_index _ _ _
  · rw [pushSample_ring_capt]
    exact ringWrite_i _ _ _ hi
  · rw [pushSample_ring_capt]
    exact ringWrite_size _ _ _ hsize
  · rw [pushSample_busy, hfull]
  · simp [pushSample_sel, hfull]

/-- Settles O9: PUSH writes one slot of capt; proc and the other fields are those of the frame lemmas. -/
theorem pushFrame : Obligations.PushFrame := by
  intro s t x hexec
  obtain ⟨-, rfl⟩ := (exec_next_iff _ s t).1 hexec
  refine ⟨pushSample_ring_proc _ s, fun k hk => ?_, pushSample_frame _ s⟩
  rw [instrEffect, pushSample_ring_capt]
  exact ringWrite_read_ne _ _ _ hk

/-- Settles O10: a fault-free state runs every command, and PUSH leaves the mark as it was. -/
theorem pushNeverWaits : Obligations.PushNeverWaits := fun s _ hf =>
  ⟨_, exec_live _ hf, (pushSample_fault _ s).trans hf⟩

/-! ### A conversion -/

/-- The acquired sample: the high byte, or the high byte above the low byte (spec/42_sampler.md R164). -/
theorem acquire_conversionResult (c : Config) (lo hi : Byte) :
    acquire c (conversionResult lo hi) =
      BitVec.ofNat 16 (if unitWidth c = 8 then hi.toNat else hi.toNat * 2 ^ 8 + lo.toNat) := by
  have hlo := lo.isLt
  have hhi := hi.isLt
  apply BitVec.eq_of_toNat_eq
  unfold acquire
  split
  · simp only [readHighByte, conversionResult, Option.getD_none, BitVec.toNat_setWidth, BitVec.toNat_ofNat]
  · simp only [readHighByte, readLowByte, conversionResult, Option.getD_some, BitVec.toNat_append, BitVec.toNat_ofNat]
    rw [← Nat.shiftLeft_add_eq_or_of_lt hlo, Nat.shiftLeft_eq]
    omega

/-- PUSH of a sample that fits U bits writes that sample. -/
theorem exec_push_of_fits {s : State} {x : Half} (hf : s.fault = none) (hx : x.toNat < 2 ^ unitWidth s.cfg) :
    exec (.push x) s = .next (pushSample x s) := by
  rw [exec_live _ hf, instrEffect, pushOperand_of_fits _ _ hx]

theorem eventStep_of_enabled (effect : State → State) {s : State} (h : s.convEnabled = true) :
    eventStep effect s = .next ((effect s).accept .P) := by
  rw [eventStep, if_pos h]

/-- Settles O41: the event's effect is the sample step of PUSH on a sample that fits, and its acceptance touches the
schedule, the input and the position alone. -/
theorem convActsAsPush : Obligations.ConvActsAsPush := by
  intro s lo hi rest hf hturn hin hdone hie hgie
  have henabled : s.convEnabled = true := by
    simp [State.convEnabled, SamplerCtl.running, SamplerCtl.unmasked, hdone, hie, hgie]
  refine ⟨convStep lo hi s, ?_, ?_⟩
  · rw [← acquire_conversionResult]
    exact exec_push_of_fits hf (acquire_fits _ _)
  · rw [step_eq_turnOf hf hturn]
    simp only [turnOf, producerStep, hin, eventStep_of_enabled _ henabled]
    simp [State.accept, State.endTurn, convStep, hin]

end Sys2Proof.Machine
end

section
/-!
The switchboard (spec/41_producer.md R131, R132): a sample step raises busy and inverts sel together or does neither,
and nothing else does either.
-/

namespace Sys2Proof.Machine

/-- From s to t busy rises exactly where sel changes. -/
def State.RotatesWhole (s t : State) : Prop := (s.busy = false ∧ t.busy = true) ↔ t.sel ≠ s.sel

theorem pushSample_rotatesWhole (x : Half) (s : State) : s.RotatesWhole (pushSample x s) := by
  rw [State.RotatesWhole, pushSample_busy, pushSample_sel]
  cases s.busy <;> cases ringFull s.cfg (ringWrite s.cfg s.capt x) <;> simp

theorem State.RotatesWhole.of_kept {s t : State} (hsel : t.sel = s.sel) (hbusy : t.busy = true → s.busy = true) :
    s.RotatesWhole t :=
  ⟨fun ⟨hlow, hhigh⟩ => by simp [hbusy hhigh] at hlow, fun hne => absurd hsel hne⟩

theorem State.RotatesWhole.of_sameBlock {s t u : State} (h : s.RotatesWhole u) (hsame : t.SameBlock u) :
    s.RotatesWhole t := by
  rwa [State.RotatesWhole, hsame.busy, hsame.sel]

/-- No consumer command raises busy. -/
theorem instrEffect_busy (s : State) (i : Instr) (hpush : ∀ x, i ≠ .push x) :
    (instrEffect s i).busy = true → s.busy = true := by
  by_cases hrelease : i = .release
  · subst hrelease
    simp [instrEffect]
  · rw [(instrEffect_sameBlock s i hpush hrelease).busy]
    exact id

/-- What a step does to the roles: a sample step on the producer's turn, or it keeps sel and does not raise busy. -/
theorem step_roles {s t : State} (h : step s = .next t) :
    (s.sched.head? = some .producer ∧ ∃ x, t.SameBlock (pushSample x s)) ∨
      (t.sel = s.sel ∧ (t.busy = true → s.busy = true)) := by
  obtain ⟨-, hsame | ⟨hturn, x, -, hpush⟩ | ⟨-, hrelease⟩ | ⟨-, a, u, hact, hhost⟩⟩ := step_block h
  · exact .inr ⟨hsame.sel, fun hb => hsame.busy ▸ hb⟩
  · exact .inl ⟨hturn, x, hpush⟩
  · exact .inr ⟨hrelease.sel.trans (releaseFrame_sel s), fun hb => by simp [hrelease.busy] at hb⟩
  · obtain ⟨hu, -⟩ := hostAction_next hact
    rw [hu] at hhost
    exact .inr ⟨hhost.sel, fun hb => hhost.busy ▸ hb⟩

/-- Settles O31: a sample step rotates whole; any other step or command keeps sel and does not raise busy. -/
theorem promotionIsAtomic : Obligations.PromotionIsAtomic := by
  refine ⟨fun s t hstep => ?_, fun i s t hexec => ?_⟩
  · rcases step_roles hstep with ⟨hturn, x, hpush⟩ | ⟨hsel, hbusy⟩
    · exact ⟨(pushSample_rotatesWhole x s).of_sameBlock hpush, fun _ => hturn⟩
    · exact ⟨State.RotatesWhole.of_kept hsel hbusy, fun hne => absurd hsel hne⟩
  · obtain ⟨-, rfl⟩ := (exec_next_iff i s t).1 hexec
    by_cases hpush : ∃ x, i = .push x
    · obtain ⟨x, rfl⟩ := hpush
      exact ⟨pushSample_rotatesWhole _ s, fun _ => ⟨x, rfl⟩⟩
    · have hother : ∀ x, i ≠ .push x := fun x hx => hpush ⟨x, hx⟩
      obtain ⟨hsel, -⟩ := instrEffect_capt s i hother
      exact ⟨State.RotatesWhole.of_kept hsel (instrEffect_busy s i hother), fun hne => absurd hsel hne⟩

/-- Settles O32: while busy a sample changes capt alone, and the one step that lowers busy is not the producer's. -/
theorem noRotationWhileBusy : Obligations.NoRotationWhileBusy := by
  refine ⟨fun s t x hbusy hexec => ?_, fun s t hbusy hturn hstep => ?_⟩
  · obtain ⟨-, rfl⟩ := (exec_next_iff _ s t).1 hexec
    exact pushSample_of_busy _ hbusy
  · obtain ⟨hsel, ⟨hkeep, hproc⟩ | ⟨-, hconsumer, -⟩⟩ := step_of_busy hbusy hstep
    · exact ⟨hsel, hkeep, hproc⟩
    · simp [hturn] at hconsumer

end Sys2Proof.Machine
end

section
/-!
A run of PUSHes (spec/41_producer.md R133, R137, R139): as long as none promotes it is a run of ring writes on capt, and
the PUSH that promotes makes that ring proc.
-/

namespace Sys2Proof.Machine

/-! ### Commands in a row -/

theorem execAll_append {is : List Instr} (js : List Instr) {s t : State} (h : execAll is s = .next t) :
    execAll (is ++ js) s = execAll js t := by
  induction is generalizing s with
  | nil =>
    cases h
    rfl
  | cons i is ih =>
    simp only [List.cons_append, execAll] at h ⊢
    split at h
    next u _ => exact ih h
    · cases h
    · cases h

theorem execAll_singleton (i : Instr) {s : State} (hf : s.fault = none) : execAll [i] s = .next (instrEffect s i) := by
  simp only [execAll, exec_live i hf]

/-- One PUSH more after a run of PUSHes. -/
theorem execAll_pushes_concat {s u : State} {xs : List Half} (x : Half) (h : execAll (pushes xs) s = .next u)
    (hf : u.fault = none) : execAll (pushes (xs ++ [x])) s = .next (pushSample (pushOperand u.cfg x) u) := by
  have hsplit : pushes (xs ++ [x]) = pushes xs ++ [.push x] := List.map_append
  rw [hsplit, execAll_append _ h, execAll_singleton _ hf, instrEffect]

/-! ### Rings and roles -/

@[simp] theorem setRing_setRing (s : State) (r : RingId) (a b : Ring) :
    (s.setRing r a).setRing r b = s.setRing r b := by
  cases r <;> rfl

theorem ringWrites_append (c : Config) (r : Ring) (xs ys : List Half) :
    ringWrites c (ringWrites c r xs) ys = ringWrites c r (xs ++ ys) := by
  induction xs generalizing r with
  | nil => rfl
  | cons x xs ih => exact ih (ringWrite c r x)

/-- RELEASE leaves capt as it is (spec/43_consumer.md R194). -/
theorem releaseFrame_capt (s : State) : (releaseFrame s).capt = s.capt := by
  rw [State.capt, releaseFrame_sel, releaseFrame_ring_capt, State.capt]

/-- A promotion makes capt proc (spec/41_producer.md R131). -/
theorem proc_of_promote (s : State) : s.promote.proc = s.capt := by
  simp [State.proc, State.procId, State.capt]

/-! ### Samples written to capt -/

/-- s with the samples of xs written to capt, and the roles as they are. -/
def State.writeCapt (s : State) (xs : List Half) : State := s.setRing s.sel (ringWrites s.cfg s.capt xs)

@[simp] theorem writeCapt_cfg (s : State) (xs : List Half) : (s.writeCapt xs).cfg = s.cfg := setRing_cfg s _ _
@[simp] theorem writeCapt_sel (s : State) (xs : List Half) : (s.writeCapt xs).sel = s.sel := setRing_sel s _ _
@[simp] theorem writeCapt_busy (s : State) (xs : List Half) : (s.writeCapt xs).busy = s.busy := setRing_busy s _ _
@[simp] theorem writeCapt_fault (s : State) (xs : List Half) : (s.writeCapt xs).fault = s.fault := setRing_fault s _ _

@[simp] theorem writeCapt_capt (s : State) (xs : List Half) : (s.writeCapt xs).capt = ringWrites s.cfg s.capt xs := by
  simp [State.writeCapt, State.capt]

theorem writeCapt_nil (s : State) : s.writeCapt [] = s := setRing_self s s.sel

theorem writeCapt_append (s : State) (xs ys : List Half) : (s.writeCapt xs).writeCapt ys = s.writeCapt (xs ++ ys) := by
  rw [State.writeCapt, writeCapt_capt, writeCapt_sel, writeCapt_cfg, ringWrites_append, State.writeCapt,
    setRing_setRing, State.writeCapt]

/-! ### The PUSH that does not promote, and the one that does -/

theorem pushSample_of_stay (x : Half) {s : State} (h : s.busy = true ∨ s.capt.size.toNat + 1 < s.cfg.bufSize) :
    pushSample x s = s.writeCapt [x] := by
  rw [pushSample_def, if_neg]
  · rfl
  · rcases h with hbusy | hroom
    · simp [hbusy]
    · rw [ringFull_ringWrite _ _ _ (by omega)]
      simp [hroom]

theorem pushSample_of_promotion (x : Half) {s : State} (hbusy : s.busy = false)
    (hle : s.capt.size.toNat ≤ s.cfg.bufSize) (hfull : s.cfg.bufSize ≤ s.capt.size.toNat + 1) :
    pushSample x s = (s.writeCapt [x]).promote := by
  rw [pushSample_def, ringFull_ringWrite _ _ _ hle, hbusy, decide_eq_true hfull]
  rfl

/-- While busy, or before the PUSH that brings capt's count to N, PUSHes are writes to capt. -/
theorem execAll_pushes_of_stay {s : State} {xs : List Half} (hf : s.fault = none)
    (hle : s.capt.size.toNat ≤ s.cfg.bufSize)
    (h : s.busy = true ∨ xs.length < max 1 (s.cfg.bufSize - s.capt.size.toNat)) :
    execAll (pushes xs) s = .next (s.writeCapt (xs.map (pushOperand s.cfg))) := by
  induction xs using List.reverseRecOn with
  | nil => rw [List.map_nil, writeCapt_nil]; rfl
  | append_singleton xs x ih =>
    rw [List.length_append, List.length_singleton] at h
    have hsize := ringWrites_size s.cfg (xs.map (pushOperand s.cfg)) hle
    rw [List.length_map] at hsize
    rw [execAll_pushes_concat x (ih (h.imp_right (by omega))) ((writeCapt_fault s _).trans hf), pushSample_of_stay,
      writeCapt_append, writeCapt_cfg, List.map_append, List.map_singleton]
    rw [writeCapt_busy, writeCapt_capt, writeCapt_cfg]
    exact h.imp_right (by omega)

/-- The PUSH that first leaves capt full with busy = 0 promotes (spec/41_producer.md R137). -/
theorem execAll_pushes_of_promotion {s : State} {xs : List Half} (hf : s.fault = none)
    (hle : s.capt.size.toNat ≤ s.cfg.bufSize) (hbusy : s.busy = false)
    (h : xs.length = max 1 (s.cfg.bufSize - s.capt.size.toNat)) :
    execAll (pushes xs) s = .next (s.writeCapt (xs.map (pushOperand s.cfg))).promote := by
  cases xs using List.reverseRecOn with
  | nil => exact absurd h (by rw [List.length_nil]; omega)
  | append_singleton xs x =>
    rw [List.length_append, List.length_singleton] at h
    have hsize := ringWrites_size s.cfg (xs.map (pushOperand s.cfg)) hle
    rw [List.length_map] at hsize
    rw [execAll_pushes_concat x (execAll_pushes_of_stay hf hle (.inr (by omega))) ((writeCapt_fault s _).trans hf),
      pushSample_of_promotion, writeCapt_append, writeCapt_cfg, List.map_append, List.map_singleton]
    · rw [writeCapt_busy, hbusy]
    · rw [writeCapt_capt, writeCapt_cfg]
      omega
    · rw [writeCapt_capt, writeCapt_cfg]
      omega

/-- Settles O34: the PUSHes before the m-th are writes alone, and the m-th promotes. -/
theorem promotionAtFirstFullPush : Obligations.PromotionAtFirstFullPush := by
  intro s xs hf hinv hbusy m hlen
  obtain ⟨-, hle⟩ := capt_bounds hinv.1
  rcases Nat.lt_or_eq_of_le hlen with hlt | heq
  · refine ⟨_, execAll_pushes_of_stay hf hle (.inr hlt), fun _ => ?_, fun heq => absurd heq hlt.ne⟩
    exact ⟨(writeCapt_busy s _).trans hbusy, writeCapt_sel s _⟩
  · refine ⟨_, execAll_pushes_of_promotion hf hle hbusy heq, fun hlt => absurd heq hlt.ne, fun _ => ⟨rfl, ?_⟩⟩
    rw [promote_sel, writeCapt_sel]

/-! ### What a frame holds -/

/-- Samples that fit are stored unchanged (spec/40_ring.md R107). -/
theorem map_pushOperand_of_fits {c : Config} {xs : List Half} (h : ∀ x ∈ xs, x.toNat < 2 ^ unitWidth c) :
    xs.map (pushOperand c) = xs :=
  (List.map_congr_left fun x hx => pushOperand_of_fits c x (h x hx)).trans xs.map_id

/-- Settles O38: the frame is capt after exactly N writes, which bring its index back to where it was. -/
theorem frameIsTheNSamples : Obligations.FrameIsTheNSamples := by
  intro s xs hf hinv hbusy hempty hlen hfits
  obtain ⟨hi, hle⟩ := capt_bounds hinv.1
  have hpos := s.cfg.bufSize_pos
  have hzero : s.capt.size.toNat = 0 := by rw [hempty]; rfl
  have hrun := execAll_pushes_of_promotion hf hle hbusy (xs := xs) (by omega)
  rw [map_pushOperand_of_fits hfits] at hrun
  refine ⟨_, hrun, rfl, by simp [State.procId], ?_, ?_⟩
  · rw [proc_of_promote, writeCapt_capt]
    apply BitVec.eq_of_toNat_eq
    rw [ringWrites_i _ _ hi, hlen, Nat.add_mod_right, Nat.mod_eq_of_lt hi]
  · rw [proc_of_promote, writeCapt_capt, promote_cfg, writeCapt_cfg]
    simpa [hlen] using ringWrites_holdsInOrder s.cfg xs hi hlen.ge

/-- A run of PUSHes with a release inside it: the frame is capt after all of them, if the samples after the release are
just enough to fill it (spec/41_producer.md R133, R137). -/
theorem execAll_pushes_release_pushes {s : State} {xs ys : List Half} (hf : s.fault = none)
    (hle : s.capt.size.toNat ≤ s.cfg.bufSize) (hbusy : s.busy = true)
    (hlen : ys.length = max 1 (s.cfg.bufSize - (ringWrites s.cfg s.capt xs).size.toNat))
    (hfits : ∀ x ∈ xs ++ ys, x.toNat < 2 ^ unitWidth s.cfg) :
    ∃ t, execAll (pushes xs ++ .release :: pushes ys) s = .next t ∧ t.cfg = s.cfg ∧ t.busy = true ∧
      t.procId = s.sel ∧ t.proc = ringWrites s.cfg s.capt (xs ++ ys) := by
  have hbefore := execAll_pushes_of_stay (xs := xs) hf hle (.inl hbusy)
  rw [map_pushOperand_of_fits fun x hx => hfits x (List.mem_append_left ys hx)] at hbefore
  have hrelease : execAll [.release] (s.writeCapt xs) = .next (releaseFrame (s.writeCapt xs)) :=
    execAll_singleton _ ((writeCapt_fault s xs).trans hf)
  have hcapt : (releaseFrame (s.writeCapt xs)).capt = ringWrites s.cfg s.capt xs := by
    rw [releaseFrame_capt, writeCapt_capt]
  have hwritten : (ringWrites s.cfg s.capt xs).size.toNat ≤ s.cfg.bufSize := by
    rw [ringWrites_size _ _ hle]
    exact Nat.min_le_right _ _
  have hafter := execAll_pushes_of_promotion (s := releaseFrame (s.writeCapt xs)) (xs := ys) (by simpa using hf)
    (by simpa [hcapt] using hwritten) (releaseFrame_busy _) (by simpa [hcapt] using hlen)
  rw [releaseFrame_cfg, writeCapt_cfg,
    map_pushOperand_of_fits fun x hx => hfits x (List.mem_append_right xs hx)] at hafter
  refine ⟨_, (execAll_append _ hbefore).trans ((execAll_append _ hrelease).trans hafter), ?_, rfl, ?_, ?_⟩
  · simp
  · simp [State.procId]
  · rw [proc_of_promote, writeCapt_capt, hcapt, releaseFrame_cfg, writeCapt_cfg, ringWrites_append]

/-- Settles O39: N or more PUSHes leave capt full, so that one PUSH after the release is enough. -/
theorem overrunFrameIsTheLastN : Obligations.OverrunFrameIsTheLastN := by
  intro s xs y hf hinv hbusy hempty hlen hfits
  obtain ⟨hi, hle⟩ := capt_bounds hinv.1
  have hsize := ringWrites_size_of_empty s.cfg xs hempty
  obtain ⟨t, hrun, hcfg, hbusy', hprocId, hproc⟩ :=
    execAll_pushes_release_pushes (ys := [y]) hf hle hbusy (by rw [List.length_singleton]; omega) hfits
  refine ⟨t, hrun, hbusy', hprocId, ?_⟩
  have horder := ringWrites_holdsInOrder s.cfg (xs ++ [y]) hi (by rw [List.length_append]; omega)
  rwa [hproc, hcfg, ← List.length_singleton (a := y), ← List.length_append]

end Sys2Proof.Machine
end

section
/-!
The sampler's initialisation (spec/42_sampler.md R168 to R170): a setting in its order is one turn of the host, a list
of settings in their order is that many turns, and no step but a setting's touches the count of those done.
-/

namespace Sys2Proof.Machine

/-! ### Runs, one step at a time -/

theorem steps_succ_of_step {s t : State} (k : Nat) (h : step s = .next t) : steps (k + 1) s = steps k t := by
  rw [steps, h]

theorem steps_succ_next {k : Nat} {s t : State} (h : steps (k + 1) s = .next t) :
    ∃ u, step s = .next u ∧ steps k u = .next t := by
  simp only [steps] at h
  split at h
  next u hu => exact ⟨u, hu, h⟩
  · cases h
  · cases h

/-! ### The count of the settings done -/

theorem running_iff (p : SamplerCtl) : p.running = true ↔ p.initDone = 10 := by
  rw [SamplerCtl.running, beq_iff_eq]

theorem hostAction_initDone {a : HostInput} {s t : State} (h : hostAction a s = .next t) :
    t.smp.initDone = s.smp.initDone ∨ (t.smp.initDone = s.smp.initDone + 1 ∧ t.smp.initDone ≤ 10) := by
  obtain ⟨-, ⟨st, -, hnext, heq⟩ | ⟨-, heq⟩ | ⟨-, -, heq⟩⟩ := hostAction_next h
  · rw [heq]; exact .inr ⟨hnext, st.number_le_ten⟩
  · rw [heq]; exact .inl rfl
  · rw [heq]; exact .inl rfl

/-- A step leaves the count of the settings done as it is, or raises it by one, to ten at most. -/
theorem step_initDone {s t : State} (h : step s = .next t) :
    t.smp.initDone = s.smp.initDone ∨ (t.smp.initDone = s.smp.initDone + 1 ∧ t.smp.initDone ≤ 10) := by
  obtain ⟨-, hsame | ⟨-, x, -, hpush⟩ | ⟨-, hrelease⟩ | ⟨-, a, u, hact, hhost⟩⟩ := step_block h
  · rw [hsame.smp]; exact .inl rfl
  · rw [hpush.smp, pushSample_smp]; exact .inl rfl
  · rw [hrelease.smp, releaseFrame_smp]; exact .inl rfl
  · rw [hhost.smp]; exact hostAction_initDone hact

theorem steps_initDone_le {k : Nat} {s t : State} (h : steps k s = .next t) :
    t.smp.initDone ≤ s.smp.initDone + k := by
  induction k generalizing s with
  | zero =>
    cases h
    exact le_rfl
  | succ k ih =>
    obtain ⟨u, hu, hrun⟩ := steps_succ_next h
    have hrest := ih hrun
    rcases step_initDone hu with hkeep | ⟨hrise, -⟩ <;> omega

/-- Settles O47: from ten the count cannot rise, since there is no eleventh setting. -/
theorem runningIsNeverCleared : Obligations.RunningIsNeverCleared := by
  intro s t hstep hrunning
  rw [running_iff] at hrunning ⊢
  rcases step_initDone hstep with hkeep | ⟨hrise, hle⟩ <;> omega

/-! ### Settings in and out of their order -/

/-- The sampler's fields after one setting in its order. -/
def SamplerCtl.set (c : Config) (p : SamplerCtl) (st : InitStep) : SamplerCtl :=
  { applySetting c st p with initDone := st.number }

theorem execSetting_next {s : State} {st : InitStep} (h : st.number = s.smp.initDone + 1) :
    execSetting st s = .next { s with smp := s.smp.set s.cfg st } := by
  rw [execSetting, if_pos h, SamplerCtl.set]

/-- The host's turn on the setting that is next in order. -/
theorem step_setting {s : State} {st : InitStep} {rest : List HostInput} (hf : s.fault = none)
    (hturn : s.sched.head? = some .host) (hin : s.hostIn = .setting st :: rest) (h : st.number = s.smp.initDone + 1) :
    step s = .next { s with smp := s.smp.set s.cfg st, hostIn := rest, sched := s.sched.tail } := by
  rw [step_eq_turnOf hf hturn]
  simp only [turnOf, hostStep, hin, hostAction, execSetting_next h, mapNext, State.endTurn]

/-- As many turns of the host as there are settings, where those settings are the next ones in order. -/
theorem steps_settings {s : State} {sts : List InitStep} {rest : List HostInput} {sc : List Agent} (hf : s.fault = none)
    (horder : sts.map InitStep.number = List.range' (s.smp.initDone + 1) sts.length)
    (hin : s.hostIn = sts.map .setting ++ rest) (hsched : s.sched = List.replicate sts.length .host ++ sc) :
    steps sts.length s =
      .next { s with smp := sts.foldl (SamplerCtl.set s.cfg) s.smp, hostIn := rest, sched := sc } := by
  induction sts generalizing s with
  | nil =>
    subst hin hsched
    rfl
  | cons st sts ih =>
    simp only [List.map_cons, List.length_cons, List.range'_succ, List.cons.injEq] at horder
    obtain ⟨hnext, horder⟩ := horder
    have hturn : s.sched.head? = some .host := by rw [hsched]; rfl
    rw [List.length_cons, steps_succ_of_step _ (step_setting hf hturn hin hnext)]
    refine ih hf ?_ rfl ?_
    · rwa [← hnext] at horder
    · rw [hsched]; rfl

/-- Settles O44: the ten settings are in their order, so that ten turns apply them one after another; fewer than ten
steps of any kind leave the count below ten. -/
theorem initialisationWritesTheSettings : Obligations.InitialisationWritesTheSettings := by
  intro s rest sc hf hnone hin hsched
  have hrun := steps_settings (sts := initSequence) hf (by rw [hnone]; rfl) hin hsched
  refine ⟨hrun, fun t ht => ?_, fun k t hk ht => ?_⟩
  · cases hrun.symm.trans ht
    rfl
  · have hle := steps_initDone_le ht
    rw [← Bool.not_eq_true, running_iff]
    omega

/-- Settles O45: a setting asks for its number to be the next, and unmasking for nine settings done. -/
theorem settingsOutOfOrderRefused : Obligations.SettingsOutOfOrderRefused := by
  intro s
  refine ⟨fun st hne => ?_, fun hlt => ?_⟩
  · rw [hostAction, execSetting, if_neg hne]
  · rw [hostAction, execUnmask, if_pos hlt]

end Sys2Proof.Machine
end

section
/-!
A conversion-complete event (spec/41_producer.md R135, spec/42_sampler.md R166, R170, spec/60_exceptions.md R234, R235):
when it waits, and what it stores where its bytes are read in the wrong order.
-/

namespace Sys2Proof.Machine

theorem convEnabled_iff (s : State) :
    s.convEnabled = true ↔ s.smp.initDone = 10 ∧ s.smp.ie = true ∧ s.smp.gie = true := by
  rw [State.convEnabled, SamplerCtl.unmasked, Bool.and_eq_true, Bool.and_eq_true, running_iff]

theorem eventStep_of_not_enabled (effect : State → State) {s : State} (h : ¬s.convEnabled = true) :
    eventStep effect s = .next s.endTurn := by
  rw [eventStep, if_neg h]

theorem producerStep_conv {s : State} {lo hi : Byte} (h : s.prodIn.head? = some (.conv lo hi)) :
    producerStep s = eventStep (convStep lo hi) s := by
  obtain ⟨rest, hin⟩ := List.head?_eq_some_iff.1 h
  simp only [producerStep, hin]

theorem producerStep_convHighFirst {s : State} {lo hi : Byte} (h : s.prodIn.head? = some (.convHighFirst lo hi)) :
    producerStep s = eventStep (convHighFirstStep lo hi) s := by
  obtain ⟨rest, hin⟩ := List.head?_eq_some_iff.1 h
  simp only [producerStep, hin]

/-- Settles O42: either kind of event is not enabled there, and ends the turn. -/
theorem convWaitsUntilEnabled : Obligations.ConvWaitsUntilEnabled := by
  intro s lo hi hf hturn hin hoff
  have hdisabled : ¬s.convEnabled = true := by
    rw [convEnabled_iff]
    rintro ⟨hdone, hie, hgie⟩
    simp [hdone, hie, hgie] at hoff
  rw [step_eq_turnOf hf hturn, turnOf]
  rcases hin with hin | hin
  · exact (producerStep_conv hin).trans (eventStep_of_not_enabled _ hdisabled)
  · exact (producerStep_convHighFirst hin).trans (eventStep_of_not_enabled _ hdisabled)

/-- With U = 16 the sample read high byte first is the free value, and one value is drawn. -/
theorem convHighFirstStep_of_two_bytes (lo hi : Byte) {s : State} (h : unitWidth s.cfg = 16) :
    convHighFirstStep lo hi s = { pushSample (Config.glitchedSample s.draws) s with draws := s.draws + 1 } := by
  rw [convHighFirstStep, if_neg (by omega)]

/-- Settles O43: every value fits 16 bits, so that PUSH of the free value writes that value, as the event does. -/
theorem wrongReadOrderGlitchesOneSample : Obligations.WrongReadOrderGlitchesOneSample := by
  intro s lo hi rest hf hturn hin hdone hie hgie hwide
  have hfits : (Config.glitchedSample s.draws).toNat < 2 ^ unitWidth s.cfg := by
    rw [hwide]
    exact (Config.glitchedSample s.draws).isLt
  refine ⟨_, exec_push_of_fits hf hfits, ?_⟩
  rw [step_eq_turnOf hf hturn, turnOf, producerStep_convHighFirst (by rw [hin]; rfl),
    eventStep_of_enabled _ ((convEnabled_iff s).2 ⟨hdone, hie, hgie⟩), convHighFirstStep_of_two_bytes lo hi hwide]
  simp [State.accept, State.endTurn, hin]

end Sys2Proof.Machine
end

section
/-!
The widths (spec/42_sampler.md R160 to R163) as functions of the divider P and the override, and the build's refusal of
any other P (spec/00_scope.md R10).
-/

namespace Sys2Proof.Machine

theorem effectiveWidth_eq (c : Config) :
    effectiveWidth c = if c.ovr8 = true ∧ sampleWidth c.prescaler = 9 then 8 else sampleWidth c.prescaler := by
  simp only [effectiveWidth, Bool.and_eq_true, beq_iff_eq]

theorem justification_left_iff (c : Config) : justification c = .left ↔ effectiveWidth c ≤ 8 := by
  unfold justification
  split <;> simp [*]

theorem justification_right_iff (c : Config) : justification c = .right ↔ 8 < effectiveWidth c := by
  rw [← Nat.not_le, ← justification_left_iff]
  cases justification c <;> simp

theorem build_of_illegal_prescaler {o : BuildOptions} (h : o.prescaler ∉ [4, 8, 16, 32, 64, 128]) :
    build o = .error .prescaler := by
  have hnone : prescalerOf o.prescaler = none := by
    rw [Option.eq_none_iff_forall_ne_some]
    exact fun p hp => h ((mem_prescalers_iff _).2 ⟨p, prescalerValue_of_prescalerOf hp⟩)
  simp only [build, hnone]

/-- Settles O5: each width is its formula, and a divider that no prescaler stands for has no build. -/
theorem widthsFollowPrescaler : Obligations.WidthsFollowPrescaler := by
  refine ⟨fun c => ⟨?_, effectiveWidth_eq c, rfl, justification_left_iff c, justification_right_iff c⟩,
    fun _ => build_of_illegal_prescaler⟩
  cases c.prescaler <;> rfl

end Sys2Proof.Machine
end

section
/-!
The consumer's commands (spec/43_consumer.md R190 to R194): what each answers, bit by bit for the status word, and the
faults of READ with what they record.
-/

namespace Sys2Proof.Machine

/-! ### READ -/

/-- The word of READ in numbers (spec/30_encoding.md R71, R73). -/
theorem encode_read (k : Half) : encode (.read k) = BitVec.ofNat 32 (0x20000000 + k.toNat) := by
  have hk := k.isLt
  apply BitVec.eq_of_toNat_eq
  rw [encode, Laws.Format.word_toNat, BitVec.toNat_ofNat]
  simp only [opcode, immOf, BitVec.toNat_ofNat]
  omega

/-- In storage whose units fit, a unit that is read has U bits. -/
theorem Memory.read_fits {c : Config} {m : Memory} {k : Nat} {v : Half} (hfit : unitsFit c m = true)
    (hv : m.read k = some v) : v.toNat < 2 ^ unitWidth c := by
  have hcell := List.all_eq_true.1 hfit _ (Memory.mem_of_read hv)
  rw [Bool.and_eq_true, decide_eq_true_eq, decide_eq_true_eq] at hcell
  exact hcell.2

theorem raise_of_live {s : State} (hf : s.fault = none) (f : Fault) : s.raise f = { s with fault := some f } := by
  rw [State.raise, hf, Option.none_or]

theorem exec_read_range {s : State} (hf : s.fault = none) {k : Half} (hk : s.cfg.bufSize ≤ k.toNat) :
    exec (.read k) s = .next (s.raise (.indexRange (encode (.read k)) k)) := by
  rw [exec_live _ hf, instrEffect, ringIndex_range _ hk, readResult]

/-- Settles O11: the written slot is RingIndex's answer, and a ring in good order holds units of U bits. -/
theorem readRespondsWithUnit : Obligations.ReadRespondsWithUnit := by
  intro s k v hf hk hv
  refine ⟨exec_read_written hf hk hv, fun hok => ?_⟩
  obtain ⟨-, -, -, hfit, -⟩ := (Ring.ok_iff _ _).1 ((ringsOk_iff s).1 hok s.procId)
  exact Memory.read_fits hfit hv

/-- Settles O12: RingIndex asks for the range first and for the written slot then. -/
theorem readFaultsOnRangeThenUnwritten : Obligations.ReadFaultsOnRangeThenUnwritten := by
  intro s k hf
  dsimp only
  rw [← encode_read]
  refine ⟨fun hk => ?_, fun hk hv => ?_⟩
  · rw [exec_read_range hf hk, raise_of_live hf]
  · rw [exec_read_unwritten hf hk hv, raise_of_live hf, State.procId]

/-! ### RDOFF, RDSTAT, RDSIZE and RELEASE -/

/-- Settles O13: the response of RDOFF is the index of proc. -/
theorem rdoffRespondsWithOffset : Obligations.RdoffRespondsWithOffset := fun _ hf => exec_live .rdoff hf

/-- The bits of STAT (spec/10_state.md R30). -/
theorem stat_getLsbD (s : State) (b : Nat) :
    s.stat.getLsbD b =
      if b = 0 then s.busy else if b = 1 then s.sel.bit.getLsbD 0 else if b = 2 then s.captFull else false := by
  simp only [State.stat, BitVec.getLsbD_append, BitVec.getLsbD_ofBool, BitVec.getLsbD_zero]
  match b with
  | 0 | 1 | 2 => simp
  | b + 3 => simp

theorem bit_getLsbD (r : RingId) : r.bit.getLsbD 0 = decide (r = .pong) := by cases r <;> rfl

/-- Settles O14: the response of RDSTAT is STAT, and CFULL says that the count of capt is N. -/
theorem rdstatRespondsWithStatus : Obligations.RdstatRespondsWithStatus := by
  intro s hf
  refine ⟨s.stat, exec_live .rdstat hf, stat_getLsbD s 0, ?_, ?_, fun b hb => ?_⟩
  · rw [stat_getLsbD, ← bit_getLsbD]; rfl
  · rw [stat_getLsbD]; rfl
  · rw [stat_getLsbD, if_neg (by omega), if_neg (by omega), if_neg (by omega)]

/-- Settles O15: the count is that of the ring the role names. -/
theorem rdsizeRespondsWithCount : Obligations.RdsizeRespondsWithCount := by
  intro s role hf
  cases role with
  | capt => exact exec_live (.rdsize .capt) hf
  | proc => exact exec_live (.rdsize .proc) hf

/-- Settles O16: RELEASE clears the count of proc and busy; the rest is its frame. -/
theorem releaseClearsProcAndBusy : Obligations.ReleaseClearsProcAndBusy := fun s hf =>
  ⟨releaseFrame s, exec_live .release hf, releaseFrame_busy s, releaseFrame_ring_proc s, releaseFrame_ring_capt s,
    releaseFrame_frame s⟩

end Sys2Proof.Machine
end

section
/-!
The pseudo-instructions on the consumer's turn (spec/43_consumer.md R198, R199): WAITBUSY as a hold or an RDSTAT, and
READC as RDOFF and then the READ of the slot the host computes.
-/

namespace Sys2Proof.Machine

/-! ### The turn of a command's own word -/

/-- The word of a well-formed command, at its own port, runs that command. -/
theorem commandStep_encode {s : State} {i : Instr} (hf : s.fault = none) (hwf : i.wellFormed s.cfg = true) :
    commandStep (portOf i) (encode i) s = .next ((instrEffect s i).acceptUnlessFaulted (portOf i)) :=
  commandStep_decoded (decodeOfEncode s.cfg i hwf) (exec_live i hf)

/-- The turn of a command that responds: the response is added and the command accepted. -/
theorem commandStep_of_respond {s : State} {i : Instr} {v : Half} (hf : s.fault = none)
    (hwf : i.wellFormed s.cfg = true) (h : instrEffect s i = s.respond v) :
    commandStep (portOf i) (encode i) s = .next ((s.respond v).accept (portOf i)) := by
  rw [commandStep_encode hf hwf, h, acceptUnlessFaulted_live (portOf i) ((respond_fault s v).trans hf)]

/-- The turn of a command that faults: the mark is set and nothing is accepted. -/
theorem commandStep_of_raise {s : State} {i : Instr} {f : Fault} (hf : s.fault = none)
    (hwf : i.wellFormed s.cfg = true) (h : instrEffect s i = s.raise f) :
    commandStep (portOf i) (encode i) s = .next { s with fault := some f } := by
  rw [commandStep_encode hf hwf, h, raise_of_live hf, acceptUnlessFaulted_faulted (portOf i) rfl]

section ReadTurn

variable {s : State} {k : Half} (hf : s.fault = none) (hturn : s.sched.head? = some .consumer)
  (hin : s.consIn.head? = some (.word (encode (.read k))))

include hf hturn hin

theorem step_eq_readStep : step s = commandStep .C (encode (.read k)) s :=
  step_eq_commandStep (p := .C) hf hturn nofun fun _ => hin

theorem step_read_range (hk : s.cfg.bufSize ≤ k.toNat) :
    step s = .next { s with fault := some (.indexRange (encode (.read k)) k) } := by
  rw [step_eq_readStep hf hturn hin]
  exact commandStep_of_raise (i := .read k) hf rfl (by rw [instrEffect, ringIndex_range _ hk, readResult])

theorem step_read_unwritten (hk : k.toNat < s.cfg.bufSize) (hv : s.proc.mem.read k.toNat = none) :
    step s = .next { s with fault := some (.unwrittenRead (encode (.read k)) s.procId k) } := by
  rw [step_eq_readStep hf hturn hin]
  exact commandStep_of_raise (i := .read k) hf rfl (by rw [instrEffect, ringIndex_unwritten hk hv, readResult])

theorem step_read_written {v : Half} (hk : k.toNat < s.cfg.bufSize) (hv : s.proc.mem.read k.toNat = some v) :
    step s = .next ((s.respond v).accept .C) := by
  rw [step_eq_readStep hf hturn hin]
  exact commandStep_of_respond (i := .read k) hf rfl (by rw [instrEffect, ringIndex_ok hk hv, readResult])

end ReadTurn

/-! ### WAITBUSY -/

theorem held_of_waitbusy {s : State} {rest : List ConsumerInput} (h : s.consIn = .waitbusy :: rest) :
    s.held = !s.busy := by
  rw [State.held, h, List.head?_cons, beq_self_eq_true, Bool.and_true]

theorem consumerStep_waitbusy {s : State} {rest : List ConsumerInput} (h : s.consIn = .waitbusy :: rest) :
    consumerStep s = if s.busy then commandStep .C (encode .rdstat) s else .next s.endTurn := by
  rw [consumerStep, h]; rfl

/-- Settles O48: with busy at 1 WAITBUSY is the RDSTAT that reads it, with busy at 0 the turn ends. -/
theorem waitbusyHoldsUntilBusy : Obligations.WaitbusyHoldsUntilBusy := by
  intro s rest hf hturn hin
  rw [held_of_waitbusy hin, step_eq_turnOf hf hturn, turnOf, consumerStep_waitbusy hin]
  refine ⟨fun hbusy => ?_, fun hbusy => ?_⟩
  · refine ⟨by rw [hbusy]; rfl, ?_⟩
    rw [if_neg (by rw [hbusy]; decide)]
    rfl
  · have hbit : s.stat.getLsbD 0 = true := (stat_getLsbD s 0).trans hbusy
    have hrdstat : commandStep .C (encode .rdstat) s = .next ((s.respond s.stat).accept .C) :=
      commandStep_of_respond (i := .rdstat) hf rfl rfl
    refine ⟨by rw [hbusy]; rfl, s.stat, hbit, ?_⟩
    rw [if_pos hbusy, hrdstat, State.accept, respond_consIn, hin]
    rfl

/-! ### READC -/

/-- The state between the two commands of READC: RDOFF is accepted, and port C is given the READ of slot k before the
rest of its input. -/
def State.afterReadcOffset (s : State) (k : Half) (drawn : Nat) (rest : List ConsumerInput) : State :=
  { (s.respond s.proc.i).accept .C with consIn := .word (encode (.read k)) :: rest, draws := drawn }

theorem rdoffThenRead_live {s : State} (hf : s.fault = none) (k : Half) (drawn : Nat) :
    rdoffThenRead k drawn s = .next (s.afterReadcOffset k drawn s.consIn.tail) := by
  have hrdoff : commandStep .C (encode .rdoff) s = .next ((s.respond s.proc.i).accept .C) :=
    commandStep_of_respond (i := .rdoff) hf rfl rfl
  rw [rdoffThenRead, hrdoff]
  rfl

/-- The consumer's turn on READC, with j in range and beyond it. -/
theorem step_readc {s : State} {j : Nat} {rest : List ConsumerInput} (hf : s.fault = none)
    (hturn : s.sched.head? = some .consumer) (hin : s.consIn = .readc j :: rest) :
    step s = .next (
      if j < s.cfg.bufSize then s.afterReadcOffset (BitVec.ofNat 16 (readcSlot s.cfg s.proc.i j)) s.draws rest
      else s.afterReadcOffset (Config.readcIndex s.draws) (s.draws + 1) rest) := by
  have hreadc : step s = readcStep j s := by
    rw [step_eq_turnOf hf hturn, turnOf, consumerStep, hin]
  rw [hreadc, readcStep]
  split <;> rw [rdoffThenRead_live hf, hin, List.tail_cons]

/-- The READ that then responds with v is accepted too, so that READC makes two responses and two acceptances. -/
theorem afterReadcOffset_respond_accept (s : State) (k v : Half) (drawn : Nat) (rest : List ConsumerInput) :
    ((s.afterReadcOffset k drawn rest).respond v).accept .C =
      { s with
        sched := s.sched.tail.tail
        consIn := rest
        posC := s.posC + 2
        responses := s.responses ++ [s.proc.i, v]
        draws := drawn } := by
  simp [State.afterReadcOffset, State.accept, State.endTurn, State.respond]

/-- The host's sum with one conditional subtraction is the sum modulo N (spec/43_consumer.md R199). -/
theorem readcSlot_eq {c : Config} {off : Half} {j : Nat} (hoff : off.toNat < c.bufSize) (hj : j < c.bufSize) :
    readcSlot c off j = (off.toNat + j) % c.bufSize := by
  simp only [readcSlot]
  split
  next h => rw [Nat.mod_eq_sub_mod h, Nat.mod_eq_of_lt (by omega)]
  next h => rw [Nat.mod_eq_of_lt (by omega)]

/-- A slot's number fits the operand of READ, since N does. -/
theorem toNat_ofNat_slot {c : Config} {k : Nat} (hk : k < c.bufSize) : (BitVec.ofNat 16 k).toNat = k := by
  have hN := c.bufSize_le
  rw [BitVec.toNat_ofNat, Nat.mod_eq_of_lt (by omega)]

/-- Settles O49: the slot of the READ is in range, and written since the frame is whole while busy. -/
theorem readcReadsJthOldest : Obligations.ReadcReadsJthOldest := by
  intro s j rest sc hf hinv hbusy hsched hin hj
  obtain ⟨hoff, -⟩ := (Ring.ok_iff _ _).1 hinv.proc_ok
  have hslot : (s.proc.i.toNat + j) % s.cfg.bufSize < s.cfg.bufSize := Nat.mod_lt _ s.cfg.bufSize_pos
  obtain ⟨v, hv⟩ := Option.isSome_iff_exists.1 (hinv.proc_wr hbusy hslot)
  have hnat := toNat_ofNat_slot hslot
  have hfirst := step_readc hf (by rw [hsched]; rfl) hin
  rw [if_pos hj, readcSlot_eq hoff hj] at hfirst
  have hturn : s.sched.tail.head? = some .consumer := by rw [hsched]; rfl
  have hsecond := step_read_written (s := s.afterReadcOffset _ s.draws rest) hf hturn rfl (hnat.symm ▸ hslot)
    (hnat.symm ▸ hv)
  refine ⟨v, hv, ?_⟩
  rw [steps_succ_of_step _ hfirst, steps_succ_of_step _ hsecond, steps, afterReadcOffset_respond_accept, hsched]
  rfl

/-- Settles O50: the free index goes into the READ, which is a READ of any index. -/
theorem readcBeyondRangeReadsFreeSlot : Obligations.ReadcBeyondRangeReadsFreeSlot := by
  intro s j rest hf hturn hin hj
  dsimp only
  rw [← encode_read]
  refine ⟨(step_readc hf hturn hin).trans (by rw [if_neg (Nat.not_lt.2 hj)]; rfl), fun hnext => ?_⟩
  have hlive : (s.afterReadcOffset (Config.readcIndex s.draws) (s.draws + 1) rest).fault = none := hf
  split
  next hk => exact step_read_range hlive hnext rfl hk
  next hk =>
    split
    next hv => exact step_read_unwritten hlive hnext rfl (Nat.not_le.1 hk) hv
    next v hv =>
      exact (step_read_written hlive hnext rfl (Nat.not_le.1 hk) hv).trans
        (congrArg _ (afterReadcOffset_respond_accept s _ v _ rest))

end Sys2Proof.Machine
end

section
/-!
The reference consumer program (spec/43_consumer.md R200): its cycle, statement by statement, as the inputs of port C.
-/

namespace Sys2Proof.Machine

theorem assemble_stmt {c : Config} {p : Option Port} {s : Stmt} {rest : Listing} {t : Nat} {a b : Streams}
    (hs : assembleStmt c t p s = some a) (hrest : assemble c rest t = some b) :
    assemble c (.stmt p s rest) t = some (a.append b) := by
  rw [assemble, hs, hrest]; rfl

theorem assemble_loop {c : Config} {n : Nat} {body rest : Listing} {t : Nat} {a b : Streams}
    (hbody : repeatStreams (assemble c body) n = some a) (hrest : assemble c rest t = some b) :
    assemble c (.loop n body rest) t = some (a.append b) := by
  rw [assemble, hbody, hrest]; rfl

/-- A body that assembles to one input of port C at each value of the counter. -/
theorem repeatStreams_of_single {f : Nat → Option Streams} {w : Nat → ConsumerInput} {n : Nat}
    (h : ∀ t < n, f t = some ⟨[], [w t]⟩) : repeatStreams f n = some ⟨[], (List.range n).map w⟩ := by
  induction n with
  | zero => rfl
  | succ n ih =>
    rw [repeatStreams, ih fun t ht => h t (by omega), h n (by omega), List.range_succ, List.map_append]
    rfl

/-- READ of the loop counter. -/
theorem assemble_read_counter (c : Config) {t : Nat} (ht : t < 65536) :
    assemble c (.stmt none (.read .counter) .done) t = some ⟨[], [.word (BitVec.ofNat 32 (0x20000000 + t))]⟩ := by
  have hword : encode (.read (BitVec.ofNat 16 t)) = BitVec.ofNat 32 (0x20000000 + t) := by
    rw [encode_read, BitVec.toNat_ofNat, Nat.mod_eq_of_lt ht]
  rw [← hword]
  exact assemble_stmt (s := .read .counter) (rest := .done) (if_pos ht) rfl

/-- Settles O51: the READs are a REPEAT of one word each, and N is at most 65535, so that each index fits its field. -/
theorem foregroundCycleWords : Obligations.ForegroundCycleWords := by
  intro c
  have hreads := repeatStreams_of_single fun t (ht : t < c.bufSize) =>
    assemble_read_counter c (ht.trans_le (c.bufSize_le.trans (by decide)))
  have hrelease : assemble c (.stmt none .release .done) 0 = some ⟨[], [.word 0x60000000#32]⟩ :=
    assemble_stmt (s := .release) (rest := .done) rfl rfl
  have hwaitbusy : assembleStmt c 0 none .waitbusy = some ⟨[], [.waitbusy]⟩ := rfl
  have hrdoff : assembleStmt c 0 none .rdoff = some ⟨[], [.word 0x30000000#32]⟩ := rfl
  exact assemble_stmt hwaitbusy (assemble_stmt hrdoff (assemble_loop hreads hrelease))

end Sys2Proof.Machine
end

section
/-!
The fault mark (spec/60_exceptions.md R231 to R233): what a word at a port leaves before it is accepted, which of F1 to
F5 it marks, and that a step which leaves a mark leaves nothing else.
-/

namespace Sys2Proof.Machine

/-! ### What a word leaves -/

/-- The state a word at a port leaves, before its acceptance, when no fault is recorded before it. -/
def wordEffect (p : Port) (w : CmdWord) (s : State) : State :=
  match decode s.cfg p w with
  | .error e => s.raise (faultOfDecode p w e)
  | .ok i => instrEffect s i

theorem wordEffect_of_error {p : Port} {w : CmdWord} {s : State} {e : DecodeError} (h : decode s.cfg p w = .error e) :
    wordEffect p w s = s.raise (faultOfDecode p w e) := by
  rw [wordEffect, h]

theorem wordEffect_of_ok {p : Port} {w : CmdWord} {s : State} {i : Instr} (h : decode s.cfg p w = .ok i) :
    wordEffect p w s = instrEffect s i := by
  rw [wordEffect, h]

theorem commandStep_live (p : Port) (w : CmdWord) {s : State} (hf : s.fault = none) :
    commandStep p w s = .next ((wordEffect p w s).acceptUnlessFaulted p) := by
  cases hdecode : decode s.cfg p w with
  | error e => simp only [commandStep, presentWord, hdecode, mapNext, wordEffect]
  | ok i => rw [commandStep_decoded hdecode (exec_live i hf), wordEffect_of_ok hdecode]

@[simp] theorem acceptUnlessFaulted_fault (s : State) (p : Port) : (s.acceptUnlessFaulted p).fault = s.fault := by
  cases hf : s.fault with
  | none => rw [acceptUnlessFaulted_live p hf]; cases p <;> exact hf
  | some f => rw [acceptUnlessFaulted_faulted p hf, hf]

/-! ### Which fault a word marks -/

/-- READ is the one command that can fault (spec/60_exceptions.md R231). -/
theorem instrEffect_fault {s : State} {i : Instr} (hread : ∀ k, i ≠ .read k) : (instrEffect s i).fault = s.fault := by
  cases i with
  | push x => exact pushSample_fault _ s
  | read k => exact absurd rfl (hread k)
  | rdoff | rdstat | rdsize role => exact respond_fault s _
  | release => exact releaseFrame_fault s

theorem instrEffect_read_fault {s : State} (hf : s.fault = none) (k : Half) :
    (instrEffect s (.read k)).fault =
      if s.cfg.bufSize ≤ k.toNat then some (.indexRange (encode (.read k)) k)
      else if s.proc.mem.read k.toNat = none then some (.unwrittenRead (encode (.read k)) s.procId k)
      else none := by
  rw [instrEffect]
  split
  next hk => rw [ringIndex_range _ hk, readResult, raise_of_live hf]
  next hk =>
    split
    next hv => rw [ringIndex_unwritten (Nat.not_le.1 hk) hv, readResult, raise_of_live hf]
    next hv =>
      obtain ⟨v, hv⟩ := Option.ne_none_iff_exists'.1 hv
      rw [ringIndex_ok (Nat.not_le.1 hk) hv, readResult, respond_fault, hf]

/-- The operand of an opcode has a reserved bit that is not zero, in numbers (spec/30_encoding.md R74, R75). -/
def ReservedOperand (c : Config) (op imm : Nat) : Prop :=
  (op = 1 ∧ unitWidth c = 8 ∧ 2 ^ 8 ≤ imm) ∨ (op = 5 ∧ 2 ≤ imm) ∨ ((op = 3 ∨ op = 4 ∨ op = 6) ∧ imm ≠ 0)

theorem decodeOperand_of_reserved {c : Config} {o : Opcode} {imm : Half} (h : ReservedOperand c o.number imm.toNat) :
    decodeOperand c o imm = .error .reservedBits := by
  cases o with
  | push => exact (decodeOperand_push c imm).trans (if_pos (by simpa [ReservedOperand, Opcode.number] using h))
  | rdsize => exact (decodeOperand_rdsize c imm).trans (if_pos (by simpa [ReservedOperand, Opcode.number] using h))
  | read => simp [ReservedOperand, Opcode.number] at h
  | rdoff | rdstat | release =>
    exact if_pos (BitVec.toNat_ne.2 (by simpa [ReservedOperand, Opcode.number] using h))

theorem decodeOperand_of_not_reserved {c : Config} {o : Opcode} {imm : Half}
    (h : ¬ReservedOperand c o.number imm.toNat) : ∃ i, decodeOperand c o imm = .ok i := by
  cases o with
  | push => exact ⟨_, (decodeOperand_push c imm).trans (if_neg (by simpa [ReservedOperand, Opcode.number] using h))⟩
  | rdsize => exact ⟨_, (decodeOperand_rdsize c imm).trans (if_neg (by simpa [ReservedOperand, Opcode.number] using h))⟩
  | read => exact ⟨.read imm, rfl⟩
  | rdoff | rdstat | release =>
    exact ⟨_, if_neg (not_not.2 (BitVec.eq_of_toNat_eq (by simpa [ReservedOperand, Opcode.number] using h)))⟩

theorem portOfOpcode_eq (o : Opcode) : portOfOpcode o = if o.number = 1 then .P else .C := by cases o <;> rfl

theorem decode_of_checked_opcode {c : Config} {p : Port} {w : CmdWord} {o : Opcode} (ho : opcodeOf (opField w) = some o)
    (hport : portOfOpcode o = p) :
    (rsvField w ≠ 0 ∨ ReservedOperand c o.number (immField w).toNat → decode c p w = .error .reservedBits) ∧
    (¬(rsvField w ≠ 0 ∨ ReservedOperand c o.number (immField w).toNat) → ∃ i, decode c p w = .ok i) := by
  rw [decode_of_opcode ho, if_neg (not_not.2 hport)]
  refine ⟨fun hbits => ?_, fun hbits => ?_⟩
  · split
    · rfl
    next hrsv => exact decodeOperand_of_reserved (hbits.resolve_left hrsv)
  · obtain ⟨hrsv, hoperand⟩ := not_or.1 hbits
    rw [if_neg hrsv]
    exact decodeOperand_of_not_reserved hoperand

/-- A decoded word marks F4 or F5 where it is READ's, and no other fault (spec/60_exceptions.md R231). -/
theorem wordEffect_fault_of_ok {p : Port} {w : CmdWord} {s : State} {i : Instr} (hf : s.fault = none)
    (h : decode s.cfg p w = .ok i) :
    (wordEffect p w s).fault =
      if (opField w).toNat = 2 ∧ s.cfg.bufSize ≤ (immField w).toNat then some (.indexRange w (immField w))
      else if (opField w).toNat = 2 ∧ s.proc.mem.read (immField w).toNat = none then
        some (.unwrittenRead w s.procId (immField w))
      else none := by
  obtain ⟨hop, -, himm, -⟩ := fields_of_decode h
  obtain ⟨-, hw, -⟩ := encodeOfDecode s.cfg p w i h
  rw [wordEffect_of_ok h, hop, himm, opcode_toNat]
  cases i with
  | read k =>
    rw [instrEffect_read_fault hf, hw]
    simp only [Instr.kind, Opcode.number, immOf, true_and]
  | push _ | rdoff | rdstat | rdsize _ | release =>
    rw [instrEffect_fault (by simp), hf]
    simp [Instr.kind, Opcode.number]

/-- Settles O21: decode's checks give F1, F2 and F3 in their order, and a word that passes them can fault as READ
alone. -/
theorem firstFaultOfAWord : Obligations.FirstFaultOfAWord := by
  intro s p w hf hturn hP hC
  dsimp only
  rw [← opField_toNat, ← rsvField_toNat, ← immField_toNat, BitVec.ofNat_toNat, BitVec.setWidth_eq]
  refine ⟨_, (step_eq_commandStep hf hturn hP hC).trans (commandStep_live p w hf), ?_⟩
  rw [acceptUnlessFaulted_fault]
  have marks : ∀ {e}, decode s.cfg p w = .error e → (wordEffect p w s).fault = some (faultOfDecode p w e) := by
    intro e he
    rw [wordEffect_of_error he, raise_of_live hf]
  cases ho : opcodeOf (opField w) with
  | none => rw [if_pos (opcodeOf_eq_none_iff.1 ho), marks (decode_of_reserved ho), faultOfDecode]
  | some o =>
    have hop := opcodeOf_eq_some_iff.1 ho
    have hlegal : ¬((opField w).toNat = 0 ∨ 7 ≤ (opField w).toNat) := by
      rw [← opcodeOf_eq_none_iff, ho]; exact Option.some_ne_none o
    rw [if_neg hlegal]
    by_cases hport : portOfOpcode o = p
    · obtain ⟨hbad, hgood⟩ := decode_of_checked_opcode (c := s.cfg) ho hport
      rw [if_neg (by rw [hop, ← portOfOpcode_eq, hport]; exact not_not.2 rfl)]
      rw [← hop, BitVec.toNat_ne] at hbad hgood
      by_cases hbits : (rsvField w).toNat ≠ 0 ∨ ReservedOperand s.cfg (opField w).toNat (immField w).toNat
      · rw [marks (hbad hbits)]
        exact (if_pos hbits).symm
      · obtain ⟨i, hi⟩ := hgood hbits
        rw [wordEffect_fault_of_ok hf hi]
        exact (if_neg hbits).symm
    · have hwrong : decode s.cfg p w = .error .wrongPort := by rw [decode_of_opcode ho, if_pos hport]
      rw [if_pos (by rw [hop, ← portOfOpcode_eq]; exact Ne.symm hport), marks hwrong, faultOfDecode]

/-! ### A step that leaves a mark -/

/-- t is without a mark, or is s with a mark and nothing else changed. -/
def State.LiveOrMarked (s t : State) : Prop := t.fault = none ∨ ∃ f, t = { s with fault := some f }

theorem raise_liveOrMarked {s : State} (hf : s.fault = none) (f : Fault) : s.LiveOrMarked (s.raise f) :=
  .inr ⟨f, raise_of_live hf f⟩

theorem instrEffect_liveOrMarked {s : State} (hf : s.fault = none) (i : Instr) : s.LiveOrMarked (instrEffect s i) := by
  cases i with
  | read k =>
    rw [instrEffect]
    rcases readResult_cases k s (ringIndex s.cfg s.proc k) with ⟨v, h⟩ | ⟨f, h⟩
    · exact .inl (by rw [h, respond_fault, hf])
    · exact h ▸ raise_liveOrMarked hf f
  | push _ | rdoff | rdstat | rdsize _ | release => exact .inl ((instrEffect_fault (by simp)).trans hf)

theorem wordEffect_liveOrMarked {s : State} (hf : s.fault = none) (p : Port) (w : CmdWord) :
    s.LiveOrMarked (wordEffect p w s) := by
  cases hdecode : decode s.cfg p w with
  | error e => exact wordEffect_of_error hdecode ▸ raise_liveOrMarked hf _
  | ok i => exact wordEffect_of_ok hdecode ▸ instrEffect_liveOrMarked hf i

/-- Acceptance is of an unmarked state only, and leaves it unmarked. -/
theorem State.LiveOrMarked.acceptUnlessFaulted {s t : State} (h : s.LiveOrMarked t) (p : Port) :
    s.LiveOrMarked (t.acceptUnlessFaulted p) := by
  rcases h with hlive | ⟨f, rfl⟩
  · exact .inl ((acceptUnlessFaulted_fault t p).trans hlive)
  · exact .inr ⟨f, acceptUnlessFaulted_faulted p rfl⟩

theorem commandStep_liveOrMarked {p : Port} {w : CmdWord} {s t : State} (hf : s.fault = none)
    (h : commandStep p w s = .next t) : s.LiveOrMarked t := by
  rw [commandStep_live p w hf] at h
  cases h
  exact (wordEffect_liveOrMarked hf p w).acceptUnlessFaulted p

@[simp] theorem convHighFirstStep_fault (lo hi : Byte) (s : State) : (convHighFirstStep lo hi s).fault = s.fault := by
  unfold convHighFirstStep
  split
  · exact pushSample_fault _ s
  · exact pushSample_fault _ s

theorem eventStep_fault {effect : State → State} {s t : State} (heffect : (effect s).fault = s.fault)
    (h : eventStep effect s = .next t) : t.fault = s.fault := by
  unfold eventStep at h
  split at h <;> cases h
  · exact heffect
  · exact endTurn_fault s

theorem producerStep_liveOrMarked {s t : State} (hf : s.fault = none) (h : producerStep s = .next t) :
    s.LiveOrMarked t := by
  unfold producerStep at h
  split at h
  · cases h
    exact .inl hf
  · exact commandStep_liveOrMarked hf h
  · exact .inl ((eventStep_fault (pushSample_fault _ s) h).trans hf)
  · exact .inl ((eventStep_fault (convHighFirstStep_fault _ _ s) h).trans hf)

/-- READC leaves no mark on its first turn: RDOFF cannot fault. -/
theorem consumerStep_liveOrMarked {s t : State} (hf : s.fault = none) (h : consumerStep s = .next t) :
    s.LiveOrMarked t := by
  unfold consumerStep at h
  split at h
  · cases h
    exact .inl hf
  · exact commandStep_liveOrMarked hf h
  · unfold waitbusyStep at h
    split at h
    · exact commandStep_liveOrMarked hf h
    · cases h
      exact .inl hf
  · obtain ⟨k, d, hreadc⟩ := readcStep_eq _ s
    rw [hreadc, rdoffThenRead_live hf] at h
    cases h
    exact .inl hf

theorem step_liveOrMarked {s t : State} (h : step s = .next t) : s.LiveOrMarked t := by
  obtain ⟨hf, hturn⟩ := unlessFaulted_next h
  split at hturn
  · cases hturn
    exact .inl hf
  · exact producerStep_liveOrMarked hf hturn
  · exact consumerStep_liveOrMarked hf hturn
  · rw [hostStep_next hturn]
    exact .inl hf

/-- Settles O22: only a faulting word's step leaves a mark, and it is not accepted; a faulted state's step and every
command ask for the mark first. -/
theorem faultedStateIsQuiescent : Obligations.FaultedStateIsQuiescent := by
  refine ⟨fun s t hstep hmark => (step_liveOrMarked hstep).resolve_left hmark, fun s f hf => ?_⟩
  exact ⟨unlessFaulted_faulted hf _, fun i => exec_faulted i hf, by simp [State.final, hf]⟩

end Sys2Proof.Machine
end

section
/-!
The exact race (spec/60_exceptions.md R236): the promoting PUSH after a release, with samples before the release or
without.
-/

namespace Sys2Proof.Machine

theorem execAll_cons (i : Instr) (is : List Instr) {s : State} (hf : s.fault = none) :
    execAll (i :: is) s = execAll is (instrEffect s i) := by
  simp only [execAll, exec_live i hf]

/-- After a release, one PUSH onto a ring that is full or one short of it promotes (spec/41_producer.md R137). -/
theorem execAll_release_push {s : State} (x : Half) (hf : s.fault = none) (hle : s.capt.size.toNat ≤ s.cfg.bufSize)
    (hfull : s.cfg.bufSize ≤ s.capt.size.toNat + 1) :
    ∃ t, execAll [.release, .push x] s = .next t ∧ t.busy = true ∧ t.sel = s.sel.other := by
  have hrun := execAll_pushes_of_promotion (s := releaseFrame s) (xs := [x]) ((releaseFrame_fault s).trans hf)
    (by rwa [releaseFrame_capt, releaseFrame_cfg]) (releaseFrame_busy s)
    (by rw [releaseFrame_capt, releaseFrame_cfg, List.length_singleton]; omega)
  refine ⟨_, (execAll_cons .release _ hf).trans hrun, promote_busy _, ?_⟩
  rw [promote_sel, writeCapt_sel, releaseFrame_sel]

/-- Settles O35: a PUSH while busy only writes, and fills capt; the PUSH after the release promotes in either order. -/
theorem exactRaceBothOrders : Obligations.ExactRaceBothOrders := by
  intro s x y hf hinv hbusy hshort
  have hle : s.capt.size.toNat ≤ s.cfg.bufSize := by omega
  have hpush (is : List Instr) : execAll (.push x :: is) s = execAll is (s.writeCapt [pushOperand s.cfg x]) := by
    rw [execAll_cons _ _ hf, instrEffect, pushSample_of_stay _ (.inl hbusy)]
  have hlive : (s.writeCapt [pushOperand s.cfg x]).fault = none := (writeCapt_fault s _).trans hf
  have hsize : (s.writeCapt [pushOperand s.cfg x]).capt.size.toNat = s.cfg.bufSize := by
    rw [writeCapt_capt, ringWrites_size _ _ hle, List.length_singleton, hshort, min_self]
  refine ⟨execAll_release_push x hf hle hshort.ge, ?_, ?_⟩
  · refine ⟨_, (hpush _).trans (execAll_singleton .release hlive), releaseFrame_busy _, ?_, ?_⟩
    · exact (releaseFrame_sel _).trans (writeCapt_sel s _)
    · rw [instrEffect, releaseFrame_capt, hsize]
  · obtain ⟨t, hrun, hpromoted, hsel⟩ := execAll_release_push y hlive (by rw [writeCapt_cfg, hsize])
      (by rw [writeCapt_cfg, hsize]; exact Nat.le_succ _)
    exact ⟨t, (hpush _).trans hrun, hpromoted, hsel.trans (by rw [writeCapt_sel])⟩

end Sys2Proof.Machine
end

section
/-!
The host's masking of the interrupt (spec/60_exceptions.md R235).
-/

namespace Sys2Proof.Machine

/-- The host's turn on an action that is not refused. -/
theorem step_hostAction {s u : State} {a : HostInput} {rest : List HostInput} (hf : s.fault = none)
    (hturn : s.sched.head? = some .host) (hin : s.hostIn = a :: rest) (hact : hostAction a s = .next u) :
    step s = .next { u.endTurn with hostIn := rest } := by
  rw [step_eq_turnOf hf hturn]
  simp only [turnOf, hostStep, hin, hact, mapNext]

/-- Settles O46: masking is never refused, and unmasking not after nine settings. -/
theorem maskingWritesGieAlone : Obligations.MaskingWritesGieAlone := by
  intro s rest hf hturn
  refine ⟨fun hin => step_hostAction hf hturn hin rfl, fun hin hdone => ?_⟩
  exact step_hostAction hf hturn hin (if_neg (Nat.not_lt.2 hdone))

end Sys2Proof.Machine
end

section
/-!
The release in time (spec/70_reset_and_hazards.md R264): RELEASE anywhere before the N-th PUSH after a promotion.
-/

namespace Sys2Proof.Machine

/-- Settles O40: before the release capt holds fewer than N samples, so that the rest are just enough to fill it, and
the frame is the last N of N samples. -/
theorem releaseInTimeLosesNothing : Obligations.ReleaseInTimeLosesNothing := by
  intro s xs ys hf hinv hbusy hempty hlen hys hfits
  obtain ⟨hi, hle⟩ := capt_bounds hinv.1
  have hpos : 0 < ys.length := List.length_pos_iff.2 hys
  have hsize := ringWrites_size_of_empty s.cfg xs hempty
  obtain ⟨t, hrun, hcfg, hbusy', hprocId, hproc⟩ :=
    execAll_pushes_release_pushes (ys := ys) hf hle hbusy (by omega) hfits
  refine ⟨t, hrun, hbusy', hprocId, ?_⟩
  have hall : (xs ++ ys).length = s.cfg.bufSize := by rw [List.length_append, hlen]
  have horder := ringWrites_holdsInOrder s.cfg (xs ++ ys) hi hall.ge
  rwa [hall, Nat.sub_self, List.drop_zero, ← hproc, ← hcfg] at horder

end Sys2Proof.Machine
end
